-- ==== Sys2Proof/Word.lean ====
section
/-! DEFINITION. The word types of the hardware: 64-bit registers (00_scope.md R6), 32-bit instruction words
(30_encoding.md R80), 5-bit operand numbers (R83), 6-bit exception classes (R5). -/

namespace Sys2Proof

/-- A 64-bit value: CNTHCTL_EL2, CNTKCTL_EL1, X[t], pc, a counter value (R6, R20, R48, R50, R51, R54). -/
abbrev Word := BitVec 64

/-- An instruction word (R80). -/
abbrev InstrWord := BitVec 32

/-- The operand number `t` of an accessor, 0 to 31; 31 is the zero register (R83, R107). -/
abbrev RegNum := BitVec 5

/-- An exception class number (R5, R182, R183). -/
abbrev ExcClass := BitVec 6

end Sys2Proof
end

