-- ==== Sys2Proof/Config.lean ====
section
/-! DEFINITION. What an implementation fixes (00_scope.md R5), the vocabulary of the context the rules read
(10_state.md R53) and of the abstract accesses (41_trap_controls.md R121), and the free values. -/

namespace Sys2Proof

/-- The Exception levels, the values of PSTATE.EL (R16, R52, R189). -/
inductive EL where
  | el0 | el1 | el2 | el3
deriving DecidableEq, Repr, Inhabited

/-- The Security states the spec tells apart (R16, R53, D17): `other` is any state beyond the two it names. -/
inductive SecurityState where
  | nonSecure | secure | other
deriving DecidableEq, Repr, Inhabited

/-- The two names an accessor can be written with (R16, R68): `hctl` is CNTHCTL_EL2, `kctl` is CNTKCTL_EL1. -/
inductive Mnemonic where
  | hctl | kctl
deriving DecidableEq, Repr, Inhabited

/-- The counter and timer registers the spec lists as trap targets (R121). -/
inductive TimerReg where
  | cntfrq | cntpct | cntvct
  | cntpCtl | cntpCval | cntpTval
  | cntvCtl | cntvCval | cntvTval
  | cntpCtlEl02 | cntpCvalEl02
  | cntvCtlEl02 | cntvCvalEl02
deriving DecidableEq, Repr, Inhabited

/-- The level of an abstract access: EL0 or EL1 (R121). -/
inductive AccLevel where
  | el0 | el1
deriving DecidableEq, Repr, Inhabited

/-- The execution state the accessing code runs in (R16, R121). -/
inductive ExecState where
  | a64 | a32
deriving DecidableEq, Repr, Inhabited

/-- An abstract access to a counter or timer register (R121). Reads and writes are both accesses (D18). -/
structure Acc where
  reg : TimerReg
  el  : AccLevel
  st  : ExecState
deriving DecidableEq, Repr, Inhabited

/-- The nineteen fields of CNTHCTL_EL2 (10_state.md R27 to R46). The two fields named EL1PCTEN are different
bits and carry their layout (R36, R46). -/
inductive Field where
  | cntpmask | cntvmask | evntis | el1nvvct | el1nvpct | el1tvct | el1tvt | ecv
  | el1pten | l1El1pcten | el0pten | el0vten
  | evnti | evntdir | evnten
  | el0vcten | el0pcten
  | el1pcen | l2El1pcten
deriving DecidableEq, Repr, Inhabited

/-- The two field layouts (R22). -/
inductive Layout where
  | one | two
deriving DecidableEq, Repr, Inhabited

/-- The verdict for an access (R136). -/
inductive Verdict where
  | byOther
  | toEL2 (field : Field)
  | notByThisRegister
deriving DecidableEq, Repr, Inhabited

/-- The implementation parameters of R5, as plain data (TrapEC, a function, is `Config.trapEC`). The parameter
StoredMask is held as the reserved bits an implementation stores beyond its fields: `Machine.storedMask` adds
the field mask when EL2 is implemented, so that the constraint of R25 holds by construction and every mask
R25 allows is some value of `extraStored`. Log entry 1. -/
structure Cfg where
  haveEL2        : Bool
  haveEL3        : Bool
  haveE2H        : Bool
  haveECV        : Bool
  haveMaskBits   : Bool
  haveNV2        : Bool
  haveAArch32EL0 : Bool
  haveAArch32EL1 : Bool
  extraStored    : Word
  resetValue     : Word
deriving DecidableEq, Repr

/-- The context record of R53: the inputs every rule reads. The bits of HCR_EL2 and SCR_EL3 and the two IMASK
bits are taken by name, since the spec gives those registers no layout (N17). `kTraps` lists the accesses for
which the input KTrap is true (R122). The bits of HCR_EL2 here are what the environment supplies; a rule reads
them through `Machine.e2h`, `Machine.tge` and the rest, where an absent bit is 0 (R5). -/
structure Ctx where
  el         : EL
  hcrE2H     : Bool
  hcrTGE     : Bool
  hcrNV      : Bool
  hcrNV1     : Bool
  hcrNV2     : Bool
  scrNS      : Bool
  scrEEL2    : Bool
  el2Enabled : Bool
  security   : SecurityState
  kTraps     : List Acc
  imaskP     : Bool
  imaskV     : Bool
deriving DecidableEq, Repr

namespace Config

/-- Cfg.HaveEL2 of the implementation behind `State.reset`; open (R5). Log entry 1. -/
opaque haveEL2 : Bool
/-- Cfg.HaveE2H; open (R5). Log entry 1. -/
opaque haveE2H : Bool
/-- Cfg.HaveECV; open (R5). Log entry 1. -/
opaque haveECV : Bool
/-- Cfg.HaveMaskBits; open (R5). Log entry 1. -/
opaque haveMaskBits : Bool
/-- Cfg.HaveNV2; open (R5). Log entry 1. -/
opaque haveNV2 : Bool
/-- Cfg.HaveAArch32EL0; open (R5). Log entry 1. -/
opaque haveAArch32EL0 : Bool
/-- Cfg.HaveAArch32EL1; open (R5). Log entry 1. -/
opaque haveAArch32EL1 : Bool
/-- The reserved bits an implementation stores beyond its fields; open (R25). Log entry 1. -/
opaque extraStored : Word
/-- Cfg.ResetValue; unconstrained (R210). Log entry 2. -/
opaque resetValue : Word
/-- Cfg.TrapEC, the class a field-induced trap reports; open (R5, R183). Log entry 1. -/
opaque trapEC : Acc → ExcClass
/-- The free choice of `Sync`: which list the drain number `k` commits from while both are non-empty
(R68: "n chosen freely each time"). Log entry 8. -/
opaque drainChoice : Nat → Mnemonic
/-- The value of pc after an instruction that completes where pc + 4 passes the top of the address space,
which the spec does not define (R51, R110). Log entry 14. -/
opaque pcPastTop : Word → Word

/-- The configuration behind `State.reset`: every parameter open, but for HaveEL3, which the reset level EL3
needs (R5: PSTATE.EL == EL3 implies HaveEL3). Log entries 1 and 4. -/
def implementation : Cfg where
  haveEL2        := haveEL2
  haveEL3        := true
  haveE2H        := haveE2H
  haveECV        := haveECV
  haveMaskBits   := haveMaskBits
  haveNV2        := haveNV2
  haveAArch32EL0 := haveAArch32EL0
  haveAArch32EL1 := haveAArch32EL1
  extraStored    := extraStored
  resetValue     := resetValue

/-- The context behind `State.reset`, which the spec leaves to the environment (R210): EL3, every bit 0.
Log entry 4. -/
def resetCtx : Ctx where
  el         := .el3
  hcrE2H     := false
  hcrTGE     := false
  hcrNV      := false
  hcrNV1     := false
  hcrNV2     := false
  scrNS      := false
  scrEEL2    := false
  el2Enabled := false
  security   := .secure
  kTraps     := []
  imaskP     := false
  imaskV     := false

end Config

end Sys2Proof
end

