-- ==== Sys2Proof/Machine/Flags.lean ====
section
/-! DEFINITION. The control bits the rules test. The accessor instructions compute no flag (10_state.md R52), so
what stands here are the effective readings of the context: a bit of HCR_EL2 that the implementation lacks, or
all of HCR_EL2 when EL2 is not implemented, reads as 0 (00_scope.md R5, D5), and the layout selector (R22). -/

namespace Sys2Proof.Machine

/-- HCR_EL2.E2H as the rules read it (R5, R53). -/
def e2h (c : Cfg) (x : Ctx) : Bool := c.haveEL2 && c.haveE2H && x.hcrE2H

/-- HCR_EL2.TGE as the rules read it (D5, R53). -/
def tge (c : Cfg) (x : Ctx) : Bool := c.haveEL2 && x.hcrTGE

/-- HCR_EL2.NV as the rules read it (R5, R53). -/
def nv (c : Cfg) (x : Ctx) : Bool := c.haveEL2 && c.haveNV2 && x.hcrNV

/-- HCR_EL2.NV1 as the rules read it (R5, R53). -/
def nv1 (c : Cfg) (x : Ctx) : Bool := c.haveEL2 && c.haveNV2 && x.hcrNV1

/-- HCR_EL2.NV2 as the rules read it (R5, R53). -/
def nv2 (c : Cfg) (x : Ctx) : Bool := c.haveEL2 && c.haveNV2 && x.hcrNV2

/-- UsesLayout1(ctx) (R22). -/
def usesLayout1 (c : Cfg) (x : Ctx) : Bool := c.haveE2H && e2h c x

/-- UsesLayout2(ctx) (R22). -/
def usesLayout2 (c : Cfg) (x : Ctx) : Bool := !usesLayout1 c x

/-- The layout in force (R22). -/
def layoutInForce (c : Cfg) (x : Ctx) : Layout := if usesLayout1 c x then .one else .two

/-- KTrap(acc): the access is trapped by the control of CNTKCTL_EL1 (or CNTKCTL) the spec names for its
register; a Boolean input (R122, D15). -/
def kTrap (x : Ctx) (a : Acc) : Bool := decide (a ∈ x.kTraps)

/-- PTimer: the EL1 physical timer registers (R121). -/
def isPTimer : TimerReg → Bool
  | .cntpCtl | .cntpCval | .cntpTval => true
  | _ => false

/-- VTimer: the virtual timer registers (R121). -/
def isVTimer : TimerReg → Bool
  | .cntvCtl | .cntvCval | .cntvTval => true
  | _ => false

/-- The registers named by the EL02 descriptors (R16, R121). -/
def isEl02 : TimerReg → Bool
  | .cntpCtlEl02 | .cntpCvalEl02 | .cntvCtlEl02 | .cntvCvalEl02 => true
  | _ => false

/-- PSTATE.EL of an access (R121). -/
def accEL : AccLevel → EL
  | .el0 => .el0
  | .el1 => .el1

end Sys2Proof.Machine
end

