-- ==== Sys2Proof/Syntax.lean ====
section
/-! DEFINITION. The instructions in scope (30_encoding.md R84, R92): one constructor per row of the opcode
table. The decoder's answer NotInScope(word) is not an instruction; it stands in Decode.lean. -/

namespace Sys2Proof

/-- The instructions of R92. The operand `t` is the number of the general register X[t] (R83). -/
inductive Instr where
  /-- `MRS <Xt>, CNTHCTL_EL2` (R100). -/
  | mrsCnthctlEl2 (t : RegNum)
  /-- `MSR CNTHCTL_EL2, <Xt>` (R101). -/
  | msrCnthctlEl2 (t : RegNum)
  /-- `MRS <Xt>, CNTKCTL_EL1` (R102). -/
  | mrsCntkctlEl1 (t : RegNum)
  /-- `MSR CNTKCTL_EL1, <Xt>` (R103). -/
  | msrCntkctlEl1 (t : RegNum)
  /-- The synchronization instruction `ISB` (R69, R92), admitted by this model. -/
  | sync
deriving DecidableEq, Repr

end Sys2Proof
end

