-- ==== Sys2Proof/Decode.lean ====
section
/-! DEFINITION. The decoder and the encoder (30_encoding.md R80 to R92), the System register encoding space
(20_memory.md R60) and the assembler's spellings (R89, R90). -/

namespace Sys2Proof

/-- A point of the System register encoding space (R60). -/
structure SysregPoint where
  op0 : BitVec 2
  op1 : BitVec 3
  crn : BitVec 4
  crm : BitVec 4
  op2 : BitVec 3
deriving DecidableEq, Repr

/-- The two register names the spec gives a point (R60, R84). -/
inductive SysregName where
  | cnthctlEl2 | cntkctlEl1
deriving DecidableEq, Repr

/-- What the decoder answers: an instruction, or NotInScope(word) (R88, R92). -/
inductive Decoded where
  | instr (i : Instr)
  | notInScope (word : InstrWord)
deriving DecidableEq, Repr

/-- The point a register name stands for (R60, R84, R85). -/
def sysregPoint : SysregName → SysregPoint
  | .cnthctlEl2 => ⟨0b11#2, 0b100#3, 0b1110#4, 0b0001#4, 0b000#3⟩
  | .cntkctlEl1 => ⟨0b11#2, 0b000#3, 0b1110#4, 0b0001#4, 0b000#3⟩

/-- The register a point names, if it is one of the two (R60). -/
def sysregAt (p : SysregPoint) : Option SysregName :=
  if p = sysregPoint .cnthctlEl2 then some .cnthctlEl2
  else if p = sysregPoint .cntkctlEl1 then some .cntkctlEl1
  else none

/-- The format test of R81: bits [31:22] and bit [20] fixed. -/
def inSysregFormat (w : InstrWord) : Bool := w &&& 0xFFD00000#32 == 0xD5100000#32

/-- The point a word of the format names: op0 is 0b1 followed by o0, bit [19], that is 2 plus o0 (R81). -/
def wordPoint (w : InstrWord) : SysregPoint where
  op0 := 0b10#2 ||| (w.extractLsb' 19 1).setWidth 2
  op1 := w.extractLsb' 16 3
  crn := w.extractLsb' 12 4
  crm := w.extractLsb' 8 4
  op2 := w.extractLsb' 5 3

/-- The direction bit L, bit [21]: true is a read (R81, R82). -/
def wordReads (w : InstrWord) : Bool := w.getLsbD 21

/-- The operand number, bits [4:0] (R83). -/
def wordRt (w : InstrWord) : RegNum := w.extractLsb' 0 5

/-- The accessor of a register name and a direction (R82, R84). -/
def accessorOf (n : SysregName) (reads : Bool) (t : RegNum) : Instr :=
  match n, reads with
  | .cnthctlEl2, true => .mrsCnthctlEl2 t
  | .cnthctlEl2, false => .msrCnthctlEl2 t
  | .cntkctlEl1, true => .mrsCntkctlEl1 t
  | .cntkctlEl1, false => .msrCntkctlEl1 t

/-- The one word of the synchronization instruction (R92). -/
def syncWord : InstrWord := 0xD5033FDF#32

/-- The decoder: total, NotInScope for every word that is none of the five (R88, R92). -/
def decode (w : InstrWord) : Decoded :=
  if w = syncWord then .instr .sync
  else if inSysregFormat w then
    match sysregAt (wordPoint w) with
    | some n => .instr (accessorOf n (wordReads w) (wordRt w))
    | none => .notInScope w
  else .notInScope w

/-- A word of the System-register access format from its fields, each moved to its place (R81): the fixed bits
[31:22] and [20], L at 21, o0 (the low bit of op0) at 19, op1 at 16, CRn at 12, CRm at 8, op2 at 5, Rt at 0. -/
def accessWord (reads : Bool) (p : SysregPoint) (t : RegNum) : InstrWord :=
  0xD5100000#32
    ||| (BitVec.ofBool reads).setWidth 32 <<< 21
    ||| (p.op0.setWidth 1).setWidth 32 <<< 19
    ||| p.op1.setWidth 32 <<< 16
    ||| p.crn.setWidth 32 <<< 12
    ||| p.crm.setWidth 32 <<< 8
    ||| p.op2.setWidth 32 <<< 5
    ||| t.setWidth 32

/-- The encoder, the inverse of the decoder (R84, R92). -/
def encode : Instr → InstrWord
  | .mrsCnthctlEl2 t => accessWord true (sysregPoint .cnthctlEl2) t
  | .msrCnthctlEl2 t => accessWord false (sysregPoint .cnthctlEl2) t
  | .mrsCntkctlEl1 t => accessWord true (sysregPoint .cntkctlEl1) t
  | .msrCntkctlEl1 t => accessWord false (sysregPoint .cntkctlEl1) t
  | .sync => syncWord

/-- The instruction the decoder reads from an instruction whose bits are `w`, as the opcode table numbers them:
one 32-bit word, bits above `nbits` zero. No instruction is longer than 32 bits (R80), and no byte order is
observable (R62), so the word is given to the decoder as a value. -/
def decodeTableWord (nbits w : Nat) : Option Instr :=
  if nbits ≤ 32 then
    match decode (BitVec.ofNat 32 (w % 2 ^ nbits)) with
    | .instr i => some i
    | .notInScope _ => none
  else none

/-- The spellings of a register name: the named form first, then the generic form S<op0>_<op1>_C<CRn>_C<CRm>_<op2>
(R89, R90). -/
def sysregSpellings : SysregName → List String
  | .cnthctlEl2 => ["CNTHCTL_EL2", "S3_4_C14_C1_0"]
  | .cntkctlEl1 => ["CNTKCTL_EL1", "S3_0_C14_C1_0"]

/-- The register a spelling names (R89, R90). Letters are compared as written: R89's remark that the usual
toolchains fold case is general knowledge about toolchains, not about the machine. -/
def sysregOfSpelling (s : String) : Option SysregName :=
  if s ∈ sysregSpellings .cnthctlEl2 then some .cnthctlEl2
  else if s ∈ sysregSpellings .cntkctlEl1 then some .cntkctlEl1
  else none

/-- The spelling of an operand: X0 to X30, or XZR (R89). -/
def operandSpelling (t : RegNum) : String := if t = 31#5 then "XZR" else "X" ++ toString t.toNat

/-- The assembler line of an instruction: destination first, the named form of the register (R89, R90). -/
def assemblerLine : Instr → String
  | .mrsCnthctlEl2 t => "MRS " ++ operandSpelling t ++ ", CNTHCTL_EL2"
  | .msrCnthctlEl2 t => "MSR CNTHCTL_EL2, " ++ operandSpelling t
  | .mrsCntkctlEl1 t => "MRS " ++ operandSpelling t ++ ", CNTKCTL_EL1"
  | .msrCntkctlEl1 t => "MSR CNTKCTL_EL1, " ++ operandSpelling t
  | .sync => "ISB"

end Sys2Proof
end

