-- ==== Sys2Proof/Machine/Layout.lean ====
section
/-! DEFINITION. The register's layouts: the position, width and presence of every field (10_state.md R23, R24,
R27 to R46), the figures, the stored bits (R25) and the AArch32 view (R21). -/

namespace Sys2Proof.Machine

/-- Bit `n` of a value, bit 0 least significant (R7). -/
def bit (v : Word) (n : Nat) : Bool := v.getLsbD n

/-- The lowest bit of a field (R23, R24). -/
def fieldLo : Field → Nat
  | .cntpmask => 19
  | .cntvmask => 18
  | .evntis => 17
  | .el1nvvct => 16
  | .el1nvpct => 15
  | .el1tvct => 14
  | .el1tvt => 13
  | .ecv => 12
  | .el1pten => 11
  | .l1El1pcten => 10
  | .el0pten => 9
  | .el0vten => 8
  | .evnti => 4
  | .evntdir => 3
  | .evnten => 2
  | .el0vcten => 1
  | .el0pcten => 0
  | .el1pcen => 1
  | .l2El1pcten => 0

/-- The width of a field: EVNTI has four bits, every other field one (R23, R40). -/
def fieldWidth : Field → Nat
  | .evnti => 4
  | _ => 1

/-- Whether a field exists in an implementation (R23, R24, D2). A Layout 1 field exists when Layout 1 can
apply (R35 to R38, R43, R44). -/
def fieldPresent (c : Cfg) : Field → Bool
  | .cntpmask | .cntvmask => c.haveMaskBits
  | .evntis | .el1nvvct | .el1nvpct | .el1tvct | .el1tvt | .ecv => c.haveECV
  | .el1pten | .l1El1pcten | .el0pten | .el0vten | .el0vcten | .el0pcten => c.haveE2H
  | .evnti | .evntdir | .evnten | .el1pcen | .l2El1pcten => true

/-- The fields of a layout's figure, most significant first (R23, R24); the gaps are RES0. -/
def figure : Layout → List Field
  | .one => [.cntpmask, .cntvmask, .evntis, .el1nvvct, .el1nvpct, .el1tvct, .el1tvt, .ecv,
      .el1pten, .l1El1pcten, .el0pten, .el0vten, .evnti, .evntdir, .evnten, .el0vcten, .el0pcten]
  | .two => [.cntpmask, .cntvmask, .evntis, .el1nvvct, .el1nvpct, .el1tvct, .el1tvt, .ecv,
      .evnti, .evntdir, .evnten, .el1pcen, .l2El1pcten]

/-- Whether bit `n` belongs to a field (R7, R23, R24). -/
def fieldCovers (f : Field) (n : Nat) : Bool :=
  decide (fieldLo f ≤ n) && decide (n < fieldLo f + fieldWidth f)

/-- The stored value of a field, a natural number (R10, R23, R24). A direct read sees this value, never an
"as if" value (R47). -/
def fieldValue (f : Field) (v : Word) : Nat := v.toNat / 2 ^ fieldLo f % 2 ^ fieldWidth f

/-- FieldMask(Cfg): the bits that are a field in some context (R25). -/
def fieldMask (c : Cfg) : Word :=
  0x0000_0000_0000_00FF#64
    ||| (if c.haveE2H then 0x0000_0000_0000_0F00#64 else 0#64)
    ||| (if c.haveECV then 0x0000_0000_0003_F000#64 else 0#64)
    ||| (if c.haveMaskBits then 0x0000_0000_000C_0000#64 else 0#64)

/-- Cfg.StoredMask: which bits of the register hold state (R25). It contains FieldMask(Cfg) when EL2 is
implemented; the rest is the implementation's. Log entry 1. -/
def storedMask (c : Cfg) : Word :=
  c.extraStored ||| (if c.haveEL2 then fieldMask c else 0#64)

/-- The AArch32 System register CNTHCTL as a view of the one storage: bits [31:0] (R21). -/
def aarch32View (v : Word) : BitVec 32 := v.setWidth 32

end Sys2Proof.Machine
end

