-- ==== Sys2Proof/Machine/State.lean ====
section
/-! DEFINITION. The state of the machine (10_state.md R20 to R58), the reasons a step can stop (60_exceptions.md
R180), and the state after reset (70_reset_and_hazards.md R210). -/

namespace Sys2Proof.Machine

/-- What the environment supplies at a reset (R210): the values the spec leaves unconstrained and the ones it
says the environment supplies. -/
structure ResetEnv where
  x       : Vector Word 31
  cntkctl : Word
  pc      : Word
  ctx     : Ctx
deriving DecidableEq, Repr

/-- What another agent than the PE does in its turn (R73): the environment, or the internal drain step. -/
inductive Input where
  /-- The next value of the counter input: `CounterUpdate(c)` (R54, R163). -/
  | counter (c : Word)
  /-- The environment supplies a new context; a change of PSTATE.EL synchronizes (R53, R69). -/
  | context (x : Ctx)
  /-- An EL0 or EL1 access whose trapping is asked (R121, R136). -/
  | access (a : Acc)
  /-- The internal step that commits the oldest pending write of one mnemonic (R68). -/
  | drain (n : Mnemonic)
  /-- Reset (R210). -/
  | reset (e : ResetEnv)
deriving DecidableEq, Repr

/-- Who moves in a step: the PE executes one instruction, or another agent acts. Steps of all of them
interleave freely (D27, R73). -/
inductive Turn where
  | pe
  | env (i : Input)
deriving DecidableEq, Repr

/-- An output of the machine (R57): an event-stream token, which has no payload (R169), or the verdict on an
access this register does not stop (R136). -/
inductive Output where
  | event
  | verdict (a : Acc) (v : Verdict)
deriving DecidableEq, Repr

/-- The machine's state. -/
structure State where
  /-- Cfg, fixed during a run (R5). -/
  cfg       : Cfg
  /-- The committed value of CNTHCTL_EL2 (R20, R68). -/
  cnthctl   : Word
  /-- Pend[HCTL], oldest first (R68). -/
  pendHctl  : List Word
  /-- Pend[KCTL], oldest first (R68). -/
  pendKctl  : List Word
  /-- CNTKCTL_EL1, an opaque cell (R48). -/
  cntkctl   : Word
  /-- X[0] to X[30] (R50). -/
  x         : Vector Word 31
  /-- The program counter (R51). -/
  pc        : Word
  /-- The context inputs as last supplied, PSTATE.EL among them (R52, R53). -/
  ctx       : Ctx
  /-- c_prev; absent until the first counter value (R55). -/
  cPrev     : Option Word
  /-- The address of the program's first word (R61, R63). -/
  progBase  : Word
  /-- The program, a list of instruction words that nothing writes (R61, R71). -/
  program   : List InstrWord
  /-- The model's own field: the turns still to come; empty means that the PE moves. Log entry 7. -/
  agenda    : List Turn
  /-- The model's own field: the outputs so far, oldest first (R57). Log entry 11. -/
  outputs   : List Output
  /-- The model's own field: how many free choices `Sync` has made (R68). Log entry 8. -/
  freeIndex : Nat
deriving DecidableEq, Repr

/-- The syndrome R182 attaches to the trap of an accessor: fields of its instruction word. -/
structure Syndrome where
  point : SysregPoint
  rt    : RegNum
  read  : Bool
deriving DecidableEq, Repr

/-- The terminal outcomes of the hardware (R180). Each carries the state the run ends in: the state before the
instruction with the pending lists emptied by the Sync of a change of Exception level (R185; log entry 6). Safe:
the spec describes no entry, and the model claims nothing after the outcome. -/
inductive Fault where
  /-- `Undefined()`, raised by an accessor arm that reads UNDEFINED (R181), with the address of the raising
  instruction. Safe. -/
  | undefined (address : Word) (final : State)
  /-- `SystemAccessTrap(EL2, 0x18)`, raised by the EL1 arm of the two CNTHCTL_EL2 accessors when EL2Enabled()
  and HCR_EL2.NV == 1 (R182): target, class, syndrome, address. Safe. -/
  | systemAccessTrap (target : EL) (ec : ExcClass) (syndrome : Syndrome) (address : Word) (final : State)
  /-- `FieldTrap(EL2, acc)`, raised by an access whose verdict is ToEL2(field) (R183): target, access, class
  Cfg.TrapEC(acc); the field is kept for proofs only. Safe. -/
  | fieldTrap (target : EL) (acc : Acc) (ec : ExcClass) (field : Field) (final : State)
deriving DecidableEq, Repr

/-- The refusals: not exceptions of the hardware. -/
inductive Refusal where
  /-- An instruction without a meaning; no arm answers it. Safe. -/
  | notModelled (mnemonic : String)
  /-- NotInScope(word), raised by a step whose word is none of the five instructions (R88). Safe. -/
  | notInScope (word : InstrWord)
  /-- Raised by the fetch when pc is outside the program (R51). Safe. -/
  | pcOutsideProgram (pc : Word)
  /-- Raised by the fetch when pc is not a multiple of 4 from the program base (R63). Safe. -/
  | pcMisaligned (pc : Word)
  /-- Raised by an environment turn whose context no environment can supply (R5, R15, R122). Safe. Log entry 12. -/
  | illFormedContext (x : Ctx)
  /-- Raised by an environment turn whose access cannot occur (R5, R121). Safe. Log entry 12. -/
  | illFormedAccess (a : Acc)
deriving DecidableEq, Repr

/-- The outcome of a step of this machine. -/
abbrev Result := Host.Outcome State Fault Refusal

/-- Reset (R210) of a machine with configuration `c`, in the environment `e`: the register takes
ResetValue AND StoredMask, the lists are empty, c_prev waits for the first counter value. -/
def resetState (c : Cfg) (e : ResetEnv) : State where
  cfg       := c
  cnthctl   := c.resetValue &&& storedMask c
  pendHctl  := []
  pendKctl  := []
  cntkctl   := e.cntkctl
  x         := e.x
  pc        := e.pc
  ctx       := e.ctx
  cPrev     := none
  progBase  := e.pc
  program   := []
  agenda    := []
  outputs   := []
  freeIndex := 0

/-- The values of the one named reset: registers and pc 0 (log entries 3 and 4). -/
def resetEnvDefault : ResetEnv where
  x       := Vector.replicate 31 0#64
  cntkctl := 0#64
  pc      := 0#64
  ctx     := Config.resetCtx

/-- The machine right after reset (R210): `resetState` of the open configuration, in the named environment. -/
def State.reset : State := resetState Config.implementation resetEnvDefault

end Sys2Proof.Machine
end

