-- ==== Sys2Proof/Machine/Operands.lean ====
section
/-! DEFINITION. The operand forms: the general register operand X[t] (10_state.md R50, 40_sysreg_access.md R107)
and the program counter's advance (R106). There is no immediate (R83). -/

namespace Sys2Proof.Machine

/-- X[t] as a source: operand 31 reads as zero (R50, R107). -/
def readX (t : RegNum) (s : State) : Word :=
  if h : t.toNat < 31 then s.x[t.toNat] else 0#64

/-- X[t] <- v: operand 31 discards the value (R50, R107). -/
def writeX (t : RegNum) (v : Word) (s : State) : State :=
  if h : t.toNat < 31 then { s with x := s.x.set t.toNat v } else s

/-- The pc after an instruction at `pc` that completes: pc + 4 (R106). Past the top of the address space the
spec defines no value (R51, R110), and it is free. Log entry 14. -/
def nextPc (pc : Word) : Word :=
  if pc.toNat + 4 < 2 ^ 64 then pc + 4#64 else Config.pcPastTop pc

/-- pc <- pc + 4 on completion (R51, R106). -/
def advance (s : State) : State := { s with pc := nextPc s.pc }

end Sys2Proof.Machine
end

