-- ==== Sys2Proof/Machine/Ops.lean ====
section
/-! DEFINITION. The named operations: the pending lists, drain and Sync (20_memory.md R67 to R70), reading and
writing the register through a mnemonic (40_sysreg_access.md), raising an exception (60_exceptions.md R180 to
R186), and the privilege tests of the accessors (R108). -/

namespace Sys2Proof.Machine

/-- Pend[n] (R68). -/
def pend (n : Mnemonic) (s : State) : List Word :=
  match n with
  | .hctl => s.pendHctl
  | .kctl => s.pendKctl

/-- Pend[n] <- l (R68). -/
def setPend (n : Mnemonic) (l : List Word) (s : State) : State :=
  match n with
  | .hctl => { s with pendHctl := l }
  | .kctl => { s with pendKctl := l }

/-- CNTHCTL_EL2 <- v, the committed value (R68). -/
def commit (v : Word) (s : State) : State := { s with cnthctl := v }

/-- ReadHCTL(n): the latest pending write by the same mnemonic, else the committed value (R67, R68). -/
def readHctl (n : Mnemonic) (s : State) : Word := (pend n s).getLast?.getD s.cnthctl

/-- What a write of `v` stores: v AND StoredMask (R25, R105). -/
def storedValue (c : Cfg) (v : Word) : Word := v &&& storedMask c

/-- WriteHCTL(n, v): appends to Pend[n] (R68, R105). -/
def writeHctl (n : Mnemonic) (v : Word) (s : State) : State :=
  setPend n (pend n s ++ [storedValue s.cfg v]) s

/-- CNTKCTL_EL1 <- v, unmasked (R48, R103). -/
def writeKctl (v : Word) (s : State) : State := { s with cntkctl := v }

/-- drain: commits the oldest pending write by `n`; not enabled, hence no change, when there is none (R68). -/
def drain (n : Mnemonic) (s : State) : State :=
  match pend n s with
  | [] => s
  | v :: rest => commit v (setPend n rest s)

/-- One free choice made (R68). Log entry 8. -/
def countChoice (s : State) : State := { s with freeIndex := s.freeIndex + 1 }

/-- One drain inside Sync: from the list that is non-empty, and while both are, from one chosen freely (R68). -/
def syncOne (s : State) : State :=
  match s.pendHctl, s.pendKctl with
  | [], [] => s
  | _ :: _, [] => drain .hctl s
  | [], _ :: _ => drain .kctl s
  | _ :: _, _ :: _ => drain (Config.drainChoice s.freeIndex) (countChoice s)

/-- `k` drains inside Sync (R68). -/
def syncSteps : Nat → State → State
  | 0, s => s
  | k + 1, s => syncSteps k (syncOne s)

/-- Sync: drains, freely chosen, until both lists are empty (R68, R69). -/
def synchronize (s : State) : State := syncSteps (s.pendHctl.length + s.pendKctl.length) s

/-- Taking an exception, as far as the spec describes it: nothing is saved, no register is written, pc and
PSTATE stay, and the change of Exception level performs Sync (R69, R181, R185). It is the state the run ends
in; there is no return from it (R186). Log entry 6. -/
def endOfRun (s : State) : State := synchronize s

/-- raise Undefined() (R13, R181). -/
def raiseUndefined (s : State) : Result := .fault (.undefined s.pc (endOfRun s))

/-- raise SystemAccessTrap(EL2, 0x18) (R14, R182). -/
def raiseSystemAccessTrap (y : Syndrome) (s : State) : Result :=
  .fault (.systemAccessTrap .el2 0x18#6 y s.pc (endOfRun s))

/-- FieldTrap(EL2, acc), with class Cfg.TrapEC(acc) (R183). -/
def raiseFieldTrap (f : Field) (a : Acc) (s : State) : Result :=
  .fault (.fieldTrap .el2 a (Config.trapEC a) f (endOfRun s))

/-- The tests of the two CNTHCTL_EL2 accessors, in the source's order (R100, R101, R108); `done` is the state
of completion. -/
def accessCnthctl (y : Syndrome) (done s : State) : Result :=
  match s.ctx.el with
  | .el0 => raiseUndefined s
  | .el1 =>
    if s.ctx.el2Enabled && nv s.cfg s.ctx then raiseSystemAccessTrap y s else raiseUndefined s
  | .el2 => .next done
  | .el3 => .next done

/-- The tests of the two CNTKCTL_EL1 accessors, in the source's order (R102, R103, R108); `cell` is the state
of completion on the cell CNTKCTL_EL1, `redirected` the one on CNTHCTL_EL2. -/
def accessCntkctl (cell redirected s : State) : Result :=
  match s.ctx.el with
  | .el0 => raiseUndefined s
  | .el1 => .next cell
  | .el2 => if e2h s.cfg s.ctx then .next redirected else .next cell
  | .el3 => .next cell

/-- A read delivers `v` to X[t] and completes (R100, R102, R106). -/
def finishRead (t : RegNum) (v : Word) (s : State) : State := advance (writeX t v s)

/-- The syndrome of an accessor of CNTHCTL_EL2 (R182). -/
def cnthctlSyndrome (t : RegNum) (read : Bool) : Syndrome := ⟨sysregPoint .cnthctlEl2, t, read⟩

end Sys2Proof.Machine
end

