-- ==== Sys2Proof/Machine/Sync.lean ====
section
/-! DEFINITION. The synchronization instruction (20_memory.md R69, 30_encoding.md R92). -/

namespace Sys2Proof.Machine

/-- `SYNC` (`ISB`): performs Sync and nothing else, at every Exception level, and falls through (R69). -/
def execSync (s : State) : Result := .next (advance (synchronize s))

end Sys2Proof.Machine
end

