-- ==== Sys2Proof/Machine/SysregAccess.lean ====
section
/-! DEFINITION. The four accessor instructions (40_sysreg_access.md R100 to R109). They write no flag, touch no
memory, and change neither the Exception level nor any other register (R109). -/

namespace Sys2Proof.Machine

/-- `MRS <Xt>, CNTHCTL_EL2` (R100). -/
def execMrsCnthctlEl2 (t : RegNum) (s : State) : Result :=
  accessCnthctl (cnthctlSyndrome t true) (finishRead t (readHctl .hctl s) s) s

/-- `MSR CNTHCTL_EL2, <Xt>` (R101). -/
def execMsrCnthctlEl2 (t : RegNum) (s : State) : Result :=
  accessCnthctl (cnthctlSyndrome t false) (advance (writeHctl .hctl (readX t s) s)) s

/-- `MRS <Xt>, CNTKCTL_EL1` (R102). -/
def execMrsCntkctlEl1 (t : RegNum) (s : State) : Result :=
  accessCntkctl (finishRead t s.cntkctl s) (finishRead t (readHctl .kctl s) s) s

/-- `MSR CNTKCTL_EL1, <Xt>` (R103). -/
def execMsrCntkctlEl1 (t : RegNum) (s : State) : Result :=
  accessCntkctl (advance (writeKctl (readX t s) s)) (advance (writeHctl .kctl (readX t s) s)) s

end Sys2Proof.Machine
end

