-- ==== Sys2Proof/Machine/Dispatch.lean ====
section
/-! DEFINITION. The meaning of every instruction, one arm per constructor. -/

namespace Sys2Proof.Machine

-- one arm per row of the opcode table
def exec (i : Instr) (s : State) : Host.Outcome State Fault Refusal :=
  match i with
  | .mrsCnthctlEl2 t => Sys2Proof.Machine.execMrsCnthctlEl2 t s
  | .msrCnthctlEl2 t => Sys2Proof.Machine.execMsrCnthctlEl2 t s
  | .mrsCntkctlEl1 t => Sys2Proof.Machine.execMrsCntkctlEl1 t s
  | .msrCntkctlEl1 t => Sys2Proof.Machine.execMsrCntkctlEl1 t s
  | .sync => Sys2Proof.Machine.execSync s

end Sys2Proof.Machine
end

