-- ==== Sys2Proof/Machine/EventStream.lean ====
section
/-! DEFINITION. The event stream, the timer mask overrides and the ECV enable (42_event_stream_and_timer_controls.md
R160 to R172), over the committed register value `v` (20_memory.md R70). -/

namespace Sys2Proof.Machine

/-- StreamOn (R160). -/
def streamOn (x : Ctx) (v : Word) : Bool := x.el2Enabled && bit v 2

/-- TrigIdx: EVNTI, plus 8 when EVNTIS exists and is 1 (R161, D24). -/
def trigIdx (c : Cfg) (v : Word) : Nat :=
  fieldValue .evnti v + (if c.haveECV && bit v 17 then 8 else 0)

/-- Fires(b_old, b_new): the transition EVNTDIR selects (R162). -/
def fires (v : Word) (old new : Bool) : Bool :=
  (!bit v 3 && !old && new) || (bit v 3 && old && !new)

/-- Whether a counter update from `p` to `q` emits an Event (R163). -/
def eventAt (c : Cfg) (x : Ctx) (v p q : Word) : Bool :=
  streamOn x v && fires v (bit p (trigIdx c v)) (bit q (trigIdx c v))

/-- An output is emitted (R11, R57). -/
def emit (o : Output) (s : State) : State := { s with outputs := s.outputs ++ [o] }

/-- c_prev <- q (R163). -/
def setPrev (q : Word) (s : State) : State := { s with cPrev := some q }

/-- CounterUpdate(q) (R163). The first counter value only fills c_prev (R55, D14). -/
def counterUpdate (q : Word) (s : State) : State :=
  match s.cPrev with
  | none => setPrev q s
  | some p => setPrev q (if eventAt s.cfg s.ctx s.cnthctl p q then emit .event s else s)

/-- MaskP (R164, R168). -/
def maskP (c : Cfg) (x : Ctx) (v : Word) : Bool :=
  c.haveMaskBits && x.el2Enabled && x.security == .other && bit v 19

/-- MaskV (R165, R168). -/
def maskV (c : Cfg) (x : Ctx) (v : Word) : Bool :=
  c.haveMaskBits && x.el2Enabled && x.security == .other && bit v 18

/-- EffIMASK_P: what every consumer of CNTP_CTL_EL0.IMASK but a direct read uses (R164). -/
def effImaskP (s : State) : Bool := maskP s.cfg s.ctx s.cnthctl || s.ctx.imaskP

/-- EffIMASK_V (R165). -/
def effImaskV (s : State) : Bool := maskV s.cfg s.ctx s.cnthctl || s.ctx.imaskV

/-- What a direct read of CNTP_CTL_EL0.IMASK returns: the stored bit (R164, R214). -/
def directImaskP (s : State) : Bool := s.ctx.imaskP

/-- What a direct read of CNTV_CTL_EL0.IMASK returns: the stored bit (R165, R214). -/
def directImaskV (s : State) : Bool := s.ctx.imaskV

/-- The ECV enable of a register value (R166). -/
def ecvOn (c : Cfg) (x : Ctx) (v : Word) : Bool :=
  c.haveECV && bit v 12 && x.el2Enabled && (x.scrNS || x.scrEEL2) && (!e2h c x || !tge c x)

/-- ECVEnabled, an output with no further behaviour (R166, R167). -/
def ecvEnabled (s : State) : Bool := ecvOn s.cfg s.ctx s.cnthctl

end Sys2Proof.Machine
end

