-- ==== Sys2Proof/Machine/TrapControls.lean ====
section
/-! DEFINITION. The trap controls (41_trap_controls.md R120 to R140): one predicate per field, over the configuration,
the context, the committed register value `v` (20_memory.md R70) and the access; and the combined verdict. -/

namespace Sys2Proof.Machine

/-- T_EL1PTEN (R123): a zero bit traps. -/
def trapsEl1pten (c : Cfg) (x : Ctx) (v : Word) (a : Acc) : Bool :=
  usesLayout1 c x && x.el2Enabled && !tge c x && !bit v 11 && isPTimer a.reg && !kTrap x a

/-- T_L1_EL1PCTEN (R124). -/
def trapsL1El1pcten (c : Cfg) (x : Ctx) (v : Word) (a : Acc) : Bool :=
  usesLayout1 c x && x.el2Enabled && !tge c x && !bit v 10 && a.reg == .cntpct && !kTrap x a

/-- T_EL0PTEN (R125). -/
def trapsEl0pten (c : Cfg) (x : Ctx) (v : Word) (a : Acc) : Bool :=
  usesLayout1 c x && x.el2Enabled && tge c x && !bit v 9 && a.el == .el0 && isPTimer a.reg

/-- T_EL0VTEN (R126). -/
def trapsEl0vten (c : Cfg) (x : Ctx) (v : Word) (a : Acc) : Bool :=
  usesLayout1 c x && x.el2Enabled && tge c x && !bit v 8 && a.el == .el0 && isVTimer a.reg

/-- T_EL0VCTEN (R127): CNTFRQ needs both bits zero (R129). -/
def trapsEl0vcten (c : Cfg) (x : Ctx) (v : Word) (a : Acc) : Bool :=
  usesLayout1 c x && x.el2Enabled && tge c x && !bit v 1 && a.el == .el0
    && (a.reg == .cntvct || (a.reg == .cntfrq && !bit v 0))

/-- T_EL0PCTEN (R128). -/
def trapsEl0pcten (c : Cfg) (x : Ctx) (v : Word) (a : Acc) : Bool :=
  usesLayout1 c x && x.el2Enabled && tge c x && !bit v 0 && a.el == .el0
    && (a.reg == .cntpct || (a.reg == .cntfrq && !bit v 1))

/-- T_EL1PCEN (R130): no TGE condition in Layout 2. -/
def trapsEl1pcen (c : Cfg) (x : Ctx) (v : Word) (a : Acc) : Bool :=
  usesLayout2 c x && x.el2Enabled && !bit v 1 && isPTimer a.reg && !kTrap x a

/-- T_L2_EL1PCTEN (R131). -/
def trapsL2El1pcten (c : Cfg) (x : Ctx) (v : Word) (a : Acc) : Bool :=
  usesLayout2 c x && x.el2Enabled && !bit v 0 && a.reg == .cntpct && !kTrap x a

/-- T_EL1TVT (R132, D23): a one bit traps. -/
def trapsEl1tvt (c : Cfg) (x : Ctx) (v : Word) (a : Acc) : Bool :=
  c.haveECV && x.el2Enabled && bit v 13 && (!e2h c x || !tge c x) && isVTimer a.reg && !kTrap x a

/-- T_EL1TVCT (R133). -/
def trapsEl1tvct (c : Cfg) (x : Ctx) (v : Word) (a : Acc) : Bool :=
  c.haveECV && x.el2Enabled && bit v 14 && (!e2h c x || !tge c x) && a.reg == .cntvct && !kTrap x a

/-- NVcond (R134). -/
def nvCond (c : Cfg) (x : Ctx) : Bool :=
  (!e2h c x || !tge c x) && nv2 c x && !nv1 c x && nv c x

/-- T_EL1NVPCT (R134). -/
def trapsEl1nvpct (c : Cfg) (x : Ctx) (v : Word) (a : Acc) : Bool :=
  c.haveECV && x.el2Enabled && bit v 15 && nvCond c x && a.el == .el1
    && (a.reg == .cntpCtlEl02 || a.reg == .cntpCvalEl02)

/-- T_EL1NVVCT (R135). -/
def trapsEl1nvvct (c : Cfg) (x : Ctx) (v : Word) (a : Acc) : Bool :=
  c.haveECV && x.el2Enabled && bit v 16 && nvCond c x && a.el == .el1
    && (a.reg == .cntvCtlEl02 || a.reg == .cntvCvalEl02)

/-- The predicate of a field; the seven fields of file 42 trap nothing. -/
def fieldTraps (f : Field) (c : Cfg) (x : Ctx) (v : Word) (a : Acc) : Bool :=
  match f with
  | .el1pten => trapsEl1pten c x v a
  | .l1El1pcten => trapsL1El1pcten c x v a
  | .el0pten => trapsEl0pten c x v a
  | .el0vten => trapsEl0vten c x v a
  | .el0vcten => trapsEl0vcten c x v a
  | .el0pcten => trapsEl0pcten c x v a
  | .el1pcen => trapsEl1pcen c x v a
  | .l2El1pcten => trapsL2El1pcten c x v a
  | .el1tvt => trapsEl1tvt c x v a
  | .el1tvct => trapsEl1tvct c x v a
  | .el1nvpct => trapsEl1nvpct c x v a
  | .el1nvvct => trapsEl1nvvct c x v a
  | .cntpmask | .cntvmask | .evntis | .ecv | .evnti | .evntdir | .evnten => false

/-- The controls without an "unless" clause, in the order R136 asks them: they come before KTrap. -/
def controlsBeforeKTrap : List Field := [.el0pten, .el0vten, .el0vcten, .el0pcten, .el1nvpct, .el1nvvct]

/-- The controls to which the other register's trap is preferred (R122), in the order R136 asks them. -/
def controlsAfterKTrap : List Field := [.el1pten, .l1El1pcten, .el1pcen, .l2El1pcten, .el1tvt, .el1tvct]

/-- TrapVerdict(acc) (R136): the first control that traps, with KTrap between the two groups. -/
def trapVerdict (c : Cfg) (x : Ctx) (v : Word) (a : Acc) : Verdict :=
  match controlsBeforeKTrap.find? (fun f => fieldTraps f c x v a) with
  | some f => .toEL2 f
  | none =>
    if kTrap x a then .byOther
    else match controlsAfterKTrap.find? (fun f => fieldTraps f c x v a) with
      | some f => .toEL2 f
      | none => .notByThisRegister

/-- The register an access names: the AArch64 name with its suffix, or the bare AArch32 name (R121). -/
def accName (a : Acc) : String :=
  let bare : String := match a.reg with
    | .cntfrq => "CNTFRQ"
    | .cntpct => "CNTPCT"
    | .cntvct => "CNTVCT"
    | .cntpCtl => "CNTP_CTL"
    | .cntpCval => "CNTP_CVAL"
    | .cntpTval => "CNTP_TVAL"
    | .cntvCtl => "CNTV_CTL"
    | .cntvCval => "CNTV_CVAL"
    | .cntvTval => "CNTV_TVAL"
    | .cntpCtlEl02 => "CNTP_CTL_EL02"
    | .cntpCvalEl02 => "CNTP_CVAL_EL02"
    | .cntvCtlEl02 => "CNTV_CTL_EL02"
    | .cntvCvalEl02 => "CNTV_CVAL_EL02"
  if isEl02 a.reg then bare
  else match a.st with
    | .a64 => bare ++ "_EL0"
    | .a32 => bare

end Sys2Proof.Machine
end

