-- ==== Sys2Proof/WellFormed.lean ====
section
/-! DEFINITION. Well-formedness: of an instruction (30_encoding.md R83, R87), of a context (00_scope.md R5, R15,
41_trap_controls.md R122) and of an abstract access (R121). -/

namespace Sys2Proof

/-- Every instruction is well formed: the operand's type holds its range 0 to 31 (R83), and no encoding of the
four accessors or of SYNC is reserved (R87, R92). -/
def Instr.wellFormed : Instr → Bool
  | .mrsCnthctlEl2 _ => true
  | .msrCnthctlEl2 _ => true
  | .mrsCntkctlEl1 _ => true
  | .msrCntkctlEl1 _ => true
  | .sync => true

/-- Code runs only at implemented levels: EL2 implies HaveEL2, EL3 implies HaveEL3 (R5). -/
def Ctx.levelOk (c : Cfg) (x : Ctx) : Bool :=
  match x.el with
  | .el0 | .el1 => true
  | .el2 => c.haveEL2
  | .el3 => c.haveEL3

/-- The constraints on EL2Enabled(): it implies HaveEL2, and with EL3 implemented SCR_EL3.NS and EEL2 both 0
exclude it (R15). -/
def Ctx.el2EnabledOk (c : Cfg) (x : Ctx) : Bool :=
  (!x.el2Enabled || c.haveEL2) && !(c.haveEL3 && !x.scrNS && !x.scrEEL2 && x.el2Enabled)

/-- The constraint on KTrap: false for every access when HCR_EL2.E2H and TGE are both 1, and for every _EL02
register (R122, D15). -/
def Ctx.kTrapsOk (c : Cfg) (x : Ctx) : Bool :=
  x.kTraps.all fun a => !(Machine.e2h c x && Machine.tge c x) && !Machine.isEl02 a.reg

/-- A well-formed context (R5, R15, R122): what an environment can supply. -/
def Ctx.wellFormed (c : Cfg) (x : Ctx) : Bool :=
  x.levelOk c && x.el2EnabledOk c && x.kTrapsOk c

/-- The _EL02 registers occur only from AArch64 state at EL1 (R121). -/
def Acc.el02Ok (a : Acc) : Bool :=
  !Machine.isEl02 a.reg || (decide (a.st = .a64) && decide (a.el = .el1))

/-- An access from AArch32 state needs a level that can use AArch32 (R5). -/
def Acc.stateOk (c : Cfg) (a : Acc) : Bool :=
  match a.st, a.el with
  | .a64, _ => true
  | .a32, .el0 => c.haveAArch32EL0
  | .a32, .el1 => c.haveAArch32EL1

/-- An access is made at the level PSTATE.EL holds (R121). -/
def Acc.levelOk (x : Ctx) (a : Acc) : Bool := decide (Machine.accEL a.el = x.el)

/-- A well-formed access in a context (R5, R121). -/
def Acc.wellFormed (c : Cfg) (x : Ctx) (a : Acc) : Bool :=
  a.el02Ok && a.stateOk c && a.levelOk x

end Sys2Proof
end

