-- ==== Sys2Proof/Machine/Environment.lean ====
section
/-! DEFINITION. The turns of the environment and of the internal drain step (20_memory.md R73): counter updates, changes
of context, abstract accesses, drains, resets. -/

namespace Sys2Proof.Machine

/-- The environment supplies a context. A change of PSTATE.EL, at every exception entry and return, performs
Sync (R69); pc stays (log entry 12). -/
def changeContext (x : Ctx) (s : State) : State :=
  if x.el = s.ctx.el then { s with ctx := x } else { synchronize s with ctx := x }

/-- The turn that supplies a context; one that no environment can supply is refused (R5, R15, R122). -/
def contextTurn (x : Ctx) (s : State) : Result :=
  if x.wellFormed s.cfg then .next (changeContext x s) else .refused (.illFormedContext x)

/-- The turn that asks whether an access is trapped (R136, R180): a trap ends the run (R183); else the verdict
is an output and this register does nothing more (log entry 11). -/
def accessTurn (a : Acc) (s : State) : Result :=
  if a.wellFormed s.cfg s.ctx then
    match trapVerdict s.cfg s.ctx s.cnthctl a with
    | .toEL2 f => raiseFieldTrap f a s
    | .byOther => .next (emit (.verdict a .byOther) s)
    | .notByThisRegister => .next (emit (.verdict a .notByThisRegister) s)
  else .refused (.illFormedAccess a)

/-- Reset during a run (R210): the machine's own state is that of `resetState`; the program, the turns to come,
the outputs so far and the count of free choices are not the machine's to reset. -/
def resetInto (e : ResetEnv) (s : State) : State :=
  { resetState s.cfg e with
    progBase := s.progBase, program := s.program, agenda := s.agenda, outputs := s.outputs,
    freeIndex := s.freeIndex }

/-- The turn that resets the machine; the context it supplies must be one an environment can supply. -/
def resetTurn (e : ResetEnv) (s : State) : Result :=
  if e.ctx.wellFormed s.cfg then .next (resetInto e s) else .refused (.illFormedContext e.ctx)

/-- One turn of an agent other than the PE (R73). -/
def environmentTurn (i : Input) (s : State) : Result :=
  match i with
  | .counter c => .next (counterUpdate c s)
  | .context x => contextTurn x s
  | .access a => accessTurn a s
  | .drain n => .next (drain n s)
  | .reset e => resetTurn e s

end Sys2Proof.Machine
end

