-- ==== Sys2Proof/Machine/Fetch.lean ====
section
/-! DEFINITION. Fetching an instruction: the program is a list of words indexed by pc (20_memory.md R61, R63, R71). -/

namespace Sys2Proof.Machine

/-- What a fetch finds. -/
inductive Fetched where
  | word (w : InstrWord)
  | none (r : Refusal)
deriving DecidableEq, Repr

/-- The distance of pc from the program's base, when pc is not below it (R63). -/
def pcOffset (s : State) : Option Nat :=
  if s.progBase.toNat ≤ s.pc.toNat then some (s.pc.toNat - s.progBase.toNat) else none

/-- The word at pc. A pc outside the program is refused (R51), and so is one that is not a multiple of 4 from
the base (R63). -/
def fetch (s : State) : Fetched :=
  match pcOffset s with
  | none => .none (.pcOutsideProgram s.pc)
  | some d =>
    if d % 4 = 0 then
      match s.program[d / 4]? with
      | some w => .word w
      | none => .none (.pcOutsideProgram s.pc)
    else .none (.pcMisaligned s.pc)

/-- The program with `w` as the word at pc: in the place pc has in the program, or, where it has none, as a
program of its own at pc (log entry 5). -/
def placeWord (w : InstrWord) (s : State) : State :=
  match fetch s, pcOffset s with
  | .word _, some d => { s with program := s.program.set (d / 4) w }
  | _, _ => { s with progBase := s.pc, program := [w] }

end Sys2Proof.Machine
end

