-- ==== Sys2Proof/Machine/Step.lean ====
section
/-! DEFINITION. One step of the machine (60_exceptions.md R180): the PE executes the instruction at pc, or another agent
takes its turn (20_memory.md R73, D27). -/

namespace Sys2Proof.Machine

/-- The PE's turn: fetch, decode, execute (R61, R88, R92). -/
def peTurn (s : State) : Host.Outcome State Fault Refusal :=
  match fetch s with
  | .none r => .refused r
  | .word w =>
    match decode w with
    | .instr i => exec i s
    | .notInScope u => .refused (.notInScope u)

/-- One step: the first turn of the agenda, or the PE's when the agenda is empty. -/
def step (s : State) : Host.Outcome State Fault Refusal :=
  match s.agenda with
  | [] => peTurn s
  | .pe :: rest => peTurn { s with agenda := rest }
  | .env i :: rest => environmentTurn i { s with agenda := rest }

/-- `s` with the instruction of `nbits` bits `w` placed where step fetches next, and the turn given to the PE. -/
def State.withFetchWord (s : State) (nbits w : Nat) : State :=
  { placeWord (BitVec.ofNat 32 (w % 2 ^ nbits)) s with agenda := .pe :: s.agenda }

end Sys2Proof.Machine
end

