-- ==== Sys2Proof/Safety.lean ====
section
/-! DEFINITION. What counts as a sound state and a safe run, in the terms the claims use. -/

namespace Sys2Proof.Machine

/-- No bit outside StoredMask is held, neither committed nor pending (R25: "holds at all times"). -/
abbrev State.StoredBitsOnly (s : State) : Prop :=
  s.cnthctl &&& ~~~storedMask s.cfg = 0#64
    ∧ (∀ v ∈ s.pendHctl, v &&& ~~~storedMask s.cfg = 0#64)
    ∧ (∀ v ∈ s.pendKctl, v &&& ~~~storedMask s.cfg = 0#64)

/-- A pending write waits only at a level that can have made it: by the name CNTHCTL_EL2 at EL2 or EL3, by the
name CNTKCTL_EL1 at EL2 (R68, R69: no pending write survives a change of Exception level). -/
abbrev State.PendingAtItsLevel (s : State) : Prop :=
  (s.pendHctl ≠ [] → s.ctx.el = .el2 ∨ s.ctx.el = .el3) ∧ (s.pendKctl ≠ [] → s.ctx.el = .el2)

/-- The context is one an environment can supply (R5, R15, R122). -/
abbrev State.ContextOk (s : State) : Prop := s.ctx.wellFormed s.cfg = true

/-- The invariant of the machine. -/
abbrev State.Inv (s : State) : Prop := s.StoredBitsOnly ∧ s.PendingAtItsLevel ∧ s.ContextOk

/-- The register has no effect: no access is trapped by it, no event is emitted, no mask overridden, ECV off
(R120). -/
abbrev NoEffect (c : Cfg) (x : Ctx) (v : Word) : Prop :=
  (∀ f a, fieldTraps f c x v a = false) ∧ streamOn x v = false ∧ maskP c x v = false ∧ maskV c x v = false
    ∧ ecvOn c x v = false

/-- A run of `k` steps that neither faults nor is refused. -/
def SafeFor (k : Nat) (s : State) : Prop := ∃ t, Host.Core.run Sys2Proof.core k s = .next t

/-! The frames the claims are written in. -/

/-- Nothing the accessors and Sync leave alone has changed: Cfg, the context with PSTATE.EL, the counter, the
program, the turns to come, the outputs (R52, R69, R71, R109). -/
abbrev SameSurroundings (s t : State) : Prop :=
  t.cfg = s.cfg ∧ t.ctx = s.ctx ∧ t.cPrev = s.cPrev ∧ t.progBase = s.progBase ∧ t.program = s.program
    ∧ t.agenda = s.agenda ∧ t.outputs = s.outputs

/-- CNTHCTL_EL2, committed and pending, is unchanged. -/
abbrev SameHctl (s t : State) : Prop :=
  t.cnthctl = s.cnthctl ∧ t.pendHctl = s.pendHctl ∧ t.pendKctl = s.pendKctl ∧ t.freeIndex = s.freeIndex

/-- pc has advanced by 4, where pc + 4 does not pass the top of the address space (R51, R106, R110). -/
abbrev PcAdvanced (s t : State) : Prop := s.pc.toNat + 4 < 2 ^ 64 → t.pc = s.pc + 4#64

/-- X[r] holds `v` and every other register is unchanged; with operand 31 the value is discarded (R50, R107). -/
abbrev XWritten (r : RegNum) (v : Word) (s t : State) : Prop :=
  ∀ u : RegNum, readX u t = if u = r ∧ r ≠ 31#5 then v else readX u s

/-- The committed values that drains in a free order can leave (R68): the last write of one of the lists. -/
abbrev DrainedTo (s : State) (v : Word) : Prop :=
  match s.pendHctl.getLast?, s.pendKctl.getLast? with
  | none, none => v = s.cnthctl
  | some a, none => v = a
  | none, some b => v = b
  | some a, some b => v = a ∨ v = b

/-- What Sync does and all that it does (R68, R69). -/
abbrev Synchronized (s t : State) : Prop :=
  t.pendHctl = [] ∧ t.pendKctl = [] ∧ DrainedTo s t.cnthctl ∧ t.x = s.x ∧ t.cntkctl = s.cntkctl
    ∧ SameSurroundings s t

/-- The state a run ends in after a raise: the state before the instruction, the lists emptied (R185). -/
abbrev EndsAt (s f : State) : Prop := Synchronized s f ∧ f.pc = s.pc

/-- The state a fault leaves. -/
def faultFinal : Fault → State
  | .undefined _ f => f
  | .systemAccessTrap _ _ _ _ f => f
  | .fieldTrap _ _ _ _ f => f

/-- The drains named by a list, in order (R68). -/
def drains (ns : List Mnemonic) (s : State) : State := ns.foldl (fun u n => drain n u) s

/-- The word at pc is `w` (R61, R63): pc is 4 times some index above the program's base. -/
abbrev WordAtPc (s : State) (w : InstrWord) : Prop :=
  ∃ k, k < s.program.length ∧ s.pc.toNat = s.progBase.toNat + 4 * k ∧ s.program[k]? = some w

/-- The next turn is the PE's (R73; log entry 7): the agenda is empty, or its first turn is the PE's. -/
abbrev PeMoves (s : State) : Prop := s.agenda = [] ∨ ∃ rest, s.agenda = .pe :: rest

/-- The next step ends in FieldTrap(EL2, acc) through the field `f`, with class Cfg.TrapEC(acc) (R183). -/
abbrev TrappedBy (f : Field) (a : Acc) (s : State) : Prop :=
  ∃ fin, step s = .fault (.fieldTrap .el2 a (Config.trapEC a) f fin)

/-- The next turn is the access `a`, one that can occur (R121). -/
abbrev AccessNext (a : Acc) (s : State) : Prop :=
  s.agenda.head? = some (.env (.access a)) ∧ a.wellFormed s.cfg s.ctx = true

end Sys2Proof.Machine
end

