-- ==== Sys2Proof/Certificates/Slice0/Obligations.lean ====
section
/-! DEFINITION. The statements about the model, for the provers. Each docstring names the rule of spec/ behind it. -/

open Sys2Proof Sys2Proof.Machine

/-! ## Encoding -/

/-- Words written out from the spec decode to what they stand for (R84, R92 and 95 §3). -/
def Obligations.DecodeReadsSpecWords : Prop :=
  decode 0xD53CE105#32 = .instr (.mrsCnthctlEl2 5#5) ∧ decode 0xD51CE11F#32 = .instr (.msrCnthctlEl2 31#5)
    ∧ decode 0xD538E111#32 = .instr (.mrsCntkctlEl1 17#5) ∧ decode 0xD518E11E#32 = .instr (.msrCntkctlEl1 30#5)
    ∧ decode 0xD5033FDF#32 = .instr .sync ∧ decode 0xD53CE120#32 = .notInScope 0xD53CE120#32

/-- The decoder contract (R92): each row's mask and match, the operand in bits [4:0], the one word of SYNC, which
fails the format test, NotInScope carrying its word, and the encoder. -/
def Obligations.DecoderContract : Prop :=
  (∀ w t, decode w = .instr (.mrsCnthctlEl2 t) ↔
      w &&& 0xFFFFFFE0#32 = 0xD53CE100#32 ∧ t.toNat = w.toNat % 32)
    ∧ (∀ w t, decode w = .instr (.msrCnthctlEl2 t) ↔
      w &&& 0xFFFFFFE0#32 = 0xD51CE100#32 ∧ t.toNat = w.toNat % 32)
    ∧ (∀ w t, decode w = .instr (.mrsCntkctlEl1 t) ↔
      w &&& 0xFFFFFFE0#32 = 0xD538E100#32 ∧ t.toNat = w.toNat % 32)
    ∧ (∀ w t, decode w = .instr (.msrCntkctlEl1 t) ↔
      w &&& 0xFFFFFFE0#32 = 0xD518E100#32 ∧ t.toNat = w.toNat % 32)
    ∧ (∀ w, decode w = .instr .sync ↔ w = 0xD5033FDF#32)
    ∧ 0xD5033FDF#32 &&& 0xFFD00000#32 ≠ 0xD5100000#32
    ∧ (∀ w u, decode w = .notInScope u → u = w)
    ∧ (∀ t : RegNum, encode (.mrsCnthctlEl2 t) = 0xD53CE100#32 ||| t.setWidth 32
        ∧ encode (.msrCnthctlEl2 t) = 0xD51CE100#32 ||| t.setWidth 32
        ∧ encode (.mrsCntkctlEl1 t) = 0xD538E100#32 ||| t.setWidth 32
        ∧ encode (.msrCntkctlEl1 t) = 0xD518E100#32 ||| t.setWidth 32)

/-- Decoding an encoded instruction gives it back, for every instruction and every operand (95 §3, R92). -/
def Obligations.DecodeOfEncode : Prop :=
  ∀ i : Instr, i.wellFormed = true → decode (encode i) = .instr i

/-- Every word that decodes to an instruction is that instruction's encoding (95 §3, R92). -/
def Obligations.EncodeOfDecode : Prop :=
  ∀ (w : InstrWord) (i : Instr), decode w = .instr i → encode i = w

/-- A word that matches none of the patterns is NotInScope, and the machine refuses it by name wherever
the PE moves (R88). -/
def Obligations.WordsOutOfScopeRefused : Prop :=
  ∀ w : InstrWord, w &&& 0xFFFFFFE0#32 ∉ [0xD53CE100#32, 0xD51CE100#32, 0xD538E100#32, 0xD518E100#32] →
    w ≠ 0xD5033FDF#32 →
      decode w = .notInScope w
        ∧ ∀ s : State, PeMoves s → WordAtPc s w → step s = .refused (.notInScope w)

/-! ## The step -/

/-- When the word at pc decodes to a well-formed instruction, the PE's step is exec of it, on the state from which
the PE's turn has been taken (R61, R71, R92). -/
def Obligations.StepRunsDecodedInstruction : Prop :=
  ∀ (s : State) (w : InstrWord) (i : Instr), WordAtPc s w → decode w = .instr i → i.wellFormed = true →
    (s.agenda = [] → step s = exec i s)
      ∧ ∀ rest, s.agenda = .pe :: rest → step s = exec i { s with agenda := rest }

/-- A pc below the program, past its end, or not a multiple of 4 from its base is refused wherever the PE moves
(R51, R63). -/
def Obligations.PcOutsideProgramRefused : Prop :=
  ∀ s : State, PeMoves s →
    (s.pc.toNat < s.progBase.toNat → step s = .refused (.pcOutsideProgram s.pc))
      ∧ (∀ d, s.pc.toNat = s.progBase.toNat + d → d % 4 ≠ 0 → step s = .refused (.pcMisaligned s.pc))
      ∧ (∀ k, s.pc.toNat = s.progBase.toNat + 4 * k → s.program.length ≤ k →
          step s = .refused (.pcOutsideProgram s.pc))

/-- Cfg, the program and its base are parameters fixed for the whole run: no step changes them (R5, R61, R71). -/
def Obligations.ConfigAndProgramFixed : Prop :=
  ∀ s t : State, step s = .next t → t.cfg = s.cfg ∧ t.program = s.program ∧ t.progBase = s.progBase

/-- The committed register changes only at a reset, or to a value a write left pending (R20, R68). -/
def Obligations.RegisterChangesOnlyByWriteOrReset : Prop :=
  ∀ s t : State, step s = .next t →
    t.cnthctl = s.cnthctl ∨ t.cnthctl ∈ s.pendHctl ∨ t.cnthctl ∈ s.pendKctl
      ∨ ∃ e rest, s.agenda = .env (.reset e) :: rest

/-! ## The accessors: results and frames -/

/-- `MRS <Xt>, CNTHCTL_EL2`, the whole rule (R100): its word; at EL2 and EL3 it completes, X[t] takes the latest
pending write by this name, else the committed value, and nothing else changes but pc; at EL0 and EL1 it raises. That
the state of a raise has both lists emptied is R185 as log entry 6 reads it. -/
def Obligations.MrsCnthctlDeliversRegister : Prop :=
  ∀ (r : RegNum) (s : State),
    decode (0xD53CE100#32 ||| r.setWidth 32) = .instr (.mrsCnthctlEl2 r)
      ∧ ((s.ctx.el = .el2 ∨ s.ctx.el = .el3) →
          ∃ t, exec (.mrsCnthctlEl2 r) s = .next t ∧ XWritten r (s.pendHctl.getLast?.getD s.cnthctl) s t
            ∧ PcAdvanced s t ∧ SameHctl s t ∧ t.cntkctl = s.cntkctl ∧ SameSurroundings s t)
      ∧ ((s.ctx.el = .el0 ∨ s.ctx.el = .el1 ∧ ¬(s.ctx.el2Enabled = true ∧ nv s.cfg s.ctx = true)) →
          ∃ f, exec (.mrsCnthctlEl2 r) s = .fault (.undefined s.pc f) ∧ EndsAt s f)
      ∧ (s.ctx.el = .el1 → s.ctx.el2Enabled = true → nv s.cfg s.ctx = true →
          ∃ y f, exec (.mrsCnthctlEl2 r) s = .fault (.systemAccessTrap .el2 0x18#6 y s.pc f) ∧ EndsAt s f)

/-- `MSR CNTHCTL_EL2, <Xt>`, the whole rule (R101): its word; at EL2 and EL3 it completes, X[t] AND StoredMask is
appended to Pend[HCTL], and nothing else changes but pc; at EL0 and EL1 it raises. That the
state of a raise has both lists emptied is R185 as log entry 6 reads it. -/
def Obligations.MsrCnthctlAppendsWrite : Prop :=
  ∀ (r : RegNum) (s : State),
    decode (0xD51CE100#32 ||| r.setWidth 32) = .instr (.msrCnthctlEl2 r)
      ∧ ((s.ctx.el = .el2 ∨ s.ctx.el = .el3) →
          ∃ t, exec (.msrCnthctlEl2 r) s = .next t
            ∧ t.pendHctl = s.pendHctl ++ [readX r s &&& storedMask s.cfg]
            ∧ t.pendKctl = s.pendKctl ∧ t.cnthctl = s.cnthctl ∧ t.freeIndex = s.freeIndex
            ∧ t.x = s.x ∧ PcAdvanced s t ∧ t.cntkctl = s.cntkctl ∧ SameSurroundings s t)
      ∧ ((s.ctx.el = .el0 ∨ s.ctx.el = .el1 ∧ ¬(s.ctx.el2Enabled = true ∧ nv s.cfg s.ctx = true)) →
          ∃ f, exec (.msrCnthctlEl2 r) s = .fault (.undefined s.pc f) ∧ EndsAt s f)
      ∧ (s.ctx.el = .el1 → s.ctx.el2Enabled = true → nv s.cfg s.ctx = true →
          ∃ y f, exec (.msrCnthctlEl2 r) s = .fault (.systemAccessTrap .el2 0x18#6 y s.pc f) ∧ EndsAt s f)

/-- `MRS <Xt>, CNTKCTL_EL1`, the whole rule (R102): its word; at EL1, at EL3, and at EL2 with E2H == 0 it completes
with the opaque cell; at EL2 with E2H == 1 it completes with CNTHCTL_EL2, the latest pending write by the EL1 name,
else the committed value; at EL0 it raises. That the state of a raise has both lists emptied is R185 as log entry 6
reads it. -/
def Obligations.MrsCntkctlDeliversCellOrRegister : Prop :=
  ∀ (r : RegNum) (s : State),
    decode (0xD538E100#32 ||| r.setWidth 32) = .instr (.mrsCntkctlEl1 r)
      ∧ ((s.ctx.el = .el1 ∨ s.ctx.el = .el3 ∨ (s.ctx.el = .el2 ∧ e2h s.cfg s.ctx = false)) →
          ∃ t, exec (.mrsCntkctlEl1 r) s = .next t ∧ XWritten r s.cntkctl s t
            ∧ PcAdvanced s t ∧ SameHctl s t ∧ t.cntkctl = s.cntkctl ∧ SameSurroundings s t)
      ∧ (s.ctx.el = .el2 → e2h s.cfg s.ctx = true →
          ∃ t, exec (.mrsCntkctlEl1 r) s = .next t ∧ XWritten r (s.pendKctl.getLast?.getD s.cnthctl) s t
            ∧ PcAdvanced s t ∧ SameHctl s t ∧ t.cntkctl = s.cntkctl ∧ SameSurroundings s t)
      ∧ (s.ctx.el = .el0 → ∃ f, exec (.mrsCntkctlEl1 r) s = .fault (.undefined s.pc f) ∧ EndsAt s f)

/-- `MSR CNTKCTL_EL1, <Xt>`, the whole rule (R103): its word; at EL1, at EL3, and at EL2 with E2H == 0 it completes,
all 64 bits of X[t] go to the opaque cell, unmasked, and CNTHCTL_EL2 is unchanged; at EL2 with E2H == 1 it completes,
X[t] AND StoredMask is appended to Pend[KCTL], and the cell is unchanged; at EL0 it raises. That the state of a raise
has both lists emptied is R185 as log entry 6 reads it. -/
def Obligations.MsrCntkctlWritesCellOrRegister : Prop :=
  ∀ (r : RegNum) (s : State),
    decode (0xD518E100#32 ||| r.setWidth 32) = .instr (.msrCntkctlEl1 r)
      ∧ ((s.ctx.el = .el1 ∨ s.ctx.el = .el3 ∨ (s.ctx.el = .el2 ∧ e2h s.cfg s.ctx = false)) →
          ∃ t, exec (.msrCntkctlEl1 r) s = .next t ∧ t.cntkctl = readX r s
            ∧ t.x = s.x ∧ PcAdvanced s t ∧ SameHctl s t ∧ SameSurroundings s t)
      ∧ (s.ctx.el = .el2 → e2h s.cfg s.ctx = true →
          ∃ t, exec (.msrCntkctlEl1 r) s = .next t
            ∧ t.pendKctl = s.pendKctl ++ [readX r s &&& storedMask s.cfg]
            ∧ t.pendHctl = s.pendHctl ∧ t.cnthctl = s.cnthctl ∧ t.freeIndex = s.freeIndex
            ∧ t.x = s.x ∧ PcAdvanced s t ∧ t.cntkctl = s.cntkctl ∧ SameSurroundings s t)
      ∧ (s.ctx.el = .el0 → ∃ f, exec (.msrCntkctlEl1 r) s = .fault (.undefined s.pc f) ∧ EndsAt s f)

/-- `SYNC` completes at every level: both lists are empty, the committed value is the last write of one of them,
and nothing else changes but pc (R68, R69). The model's counter of free choices may advance. -/
def Obligations.SyncEmptiesBothLists : Prop :=
  ∀ s : State, ∃ t, exec .sync s = .next t ∧ Synchronized s t ∧ PcAdvanced s t

/-- Register operand 31 (R107): a read discards the value, a write supplies zero, and the Exception level tests
come first, so that all four accessors still raise Undefined() at EL0, and the two of CNTHCTL_EL2 raise at EL1. -/
def Obligations.OperandThirtyOne : Prop :=
  ∀ s : State,
    (∀ i ∈ [Instr.mrsCnthctlEl2 31#5, .msrCnthctlEl2 31#5, .mrsCntkctlEl1 31#5, .msrCntkctlEl1 31#5],
        s.ctx.el = .el0 → ∃ f, exec i s = .fault (.undefined s.pc f))
      ∧ (∀ i ∈ [Instr.mrsCnthctlEl2 31#5, .msrCnthctlEl2 31#5], s.ctx.el = .el1 → ∃ r, exec i s = .fault r)
      ∧ ((s.ctx.el = .el2 ∨ s.ctx.el = .el3) →
          (∃ t, exec (.mrsCnthctlEl2 31#5) s = .next t ∧ t.x = s.x)
            ∧ ∃ t, exec (.msrCnthctlEl2 31#5) s = .next t ∧ t.pendHctl = s.pendHctl ++ [0#64])
      ∧ (s.ctx.el ≠ .el0 →
          (∃ t, exec (.mrsCntkctlEl1 31#5) s = .next t ∧ t.x = s.x)
            ∧ ∃ t, exec (.msrCntkctlEl1 31#5) s = .next t
                ∧ (t.cntkctl = 0#64 ∨ t.pendKctl = s.pendKctl ++ [0#64]))

/-- What the accessors do not do (R109): they change no Exception level, no bit of the context, no counter, no
program, no output, and they never block: each completes or raises. -/
def Obligations.AccessorsTouchNothingElse : Prop :=
  ∀ (i : Instr) (s : State), i ≠ .sync →
    (∀ t, exec i s = .next t → SameSurroundings s t)
      ∧ ((∃ t, exec i s = .next t) ∨ ∃ r, exec i s = .fault r)

/-- What a write stores (R105): X[t] AND StoredMask, for both mnemonics, and every field present keeps its bits
of X[t] unchanged. -/
def Obligations.WriteStoresMaskedValue : Prop :=
  (∀ (r : RegNum) (s : State), (s.ctx.el = .el2 ∨ s.ctx.el = .el3) →
      ∃ t, exec (.msrCnthctlEl2 r) s = .next t
        ∧ t.pendHctl.getLast? = some (readX r s &&& storedMask s.cfg)
        ∧ (s.pendHctl = [] → (drain .hctl t).cnthctl = readX r s &&& storedMask s.cfg))
    ∧ (∀ (r : RegNum) (s : State), s.ctx.el = .el2 → e2h s.cfg s.ctx = true →
      ∃ t, exec (.msrCntkctlEl1 r) s = .next t
        ∧ t.pendKctl.getLast? = some (readX r s &&& storedMask s.cfg)
        ∧ (s.pendKctl = [] → (drain .kctl t).cnthctl = readX r s &&& storedMask s.cfg))
    ∧ ∀ (c : Cfg) (f : Field) (v : Word), c.haveEL2 = true → fieldPresent c f = true →
        fieldValue f (v &&& storedMask c) = fieldValue f v

/-! ## The accessors: raises -/

/-- Undefined() is raised exactly at EL0 by the four accessors, and at EL1 by the two of CNTHCTL_EL2 unless
EL2Enabled() and NV == 1; it carries the address of the instruction and the state the run ends in (R181, R185, as log
entry 6 reads them). -/
def Obligations.UndefinedExactlyWhereSpecified : Prop :=
  ∀ (i : Instr) (s : State),
    ((∃ a f, exec i s = .fault (.undefined a f)) ↔
      (i ≠ .sync ∧ s.ctx.el = .el0)
        ∨ ((∃ r, i = .mrsCnthctlEl2 r ∨ i = .msrCnthctlEl2 r) ∧ s.ctx.el = .el1
            ∧ ¬(s.ctx.el2Enabled = true ∧ nv s.cfg s.ctx = true)))
      ∧ ∀ a f, exec i s = .fault (.undefined a f) → a = s.pc ∧ EndsAt s f

/-- SystemAccessTrap is raised exactly at EL1 by the two accessors of CNTHCTL_EL2 when EL2Enabled() and NV == 1; it
goes to EL2, carries 0x18, the fields of the instruction word and its address (R182, R185, as log entry 6 reads it). -/
def Obligations.SystemAccessTrapExactlyWhereSpecified : Prop :=
  ∀ (i : Instr) (s : State),
    ((∃ g c y a f, exec i s = .fault (.systemAccessTrap g c y a f)) ↔
      (∃ r, i = .mrsCnthctlEl2 r ∨ i = .msrCnthctlEl2 r) ∧ s.ctx.el = .el1
        ∧ s.ctx.el2Enabled = true ∧ nv s.cfg s.ctx = true)
      ∧ ∀ g c y a f, exec i s = .fault (.systemAccessTrap g c y a f) →
          g = .el2 ∧ c = 0x18#6 ∧ a = s.pc ∧ EndsAt s f
            ∧ y.point = ⟨0b11#2, 0b100#3, 0b1110#4, 0b0001#4, 0b000#3⟩
            ∧ (i = .mrsCnthctlEl2 y.rt ∧ y.read = true ∨ i = .msrCnthctlEl2 y.rt ∧ y.read = false)

/-- Every fault of a step is terminal, and it leaves the state before the instruction, with the lists emptied by
Sync (R185, as log entry 6 reads it). -/
def Obligations.FaultLeavesStateBefore : Prop :=
  ∀ (s : State) (r : Fault), step s = .fault r →
    EndsAt { s with agenda := s.agenda.tail } (faultFinal r)
      ∧ ∀ k, Host.Core.run Sys2Proof.core (k + 1) s = .fault r

/-- The register when EL2 is not implemented (R104): it has no effect, its two accessors complete at EL3 only and are
Undefined() at EL1, and with the default mask a read at EL3 delivers zero and a write stores nothing. -/
def Obligations.ResZeroWithoutEl2 : Prop :=
  ∀ (s : State) (r : RegNum), s.Inv → s.cfg.haveEL2 = false →
    NoEffect s.cfg s.ctx s.cnthctl
      ∧ (∀ t, exec (.mrsCnthctlEl2 r) s = .next t ∨ exec (.msrCnthctlEl2 r) s = .next t → s.ctx.el = .el3)
      ∧ (s.ctx.el = .el1 → ∃ f g, exec (.mrsCnthctlEl2 r) s = .fault (.undefined s.pc f)
          ∧ exec (.msrCnthctlEl2 r) s = .fault (.undefined s.pc g))
      ∧ (s.ctx.el = .el3 → s.cfg.extraStored = 0#64 →
          (∃ t, exec (.mrsCnthctlEl2 r) s = .next t ∧ XWritten r 0#64 s t)
            ∧ ∃ t, exec (.msrCnthctlEl2 r) s = .next t ∧ t.pendHctl = s.pendHctl ++ [0#64]
                ∧ t.cnthctl = 0#64)

/-! ## Ordering -/

/-- With one mnemonic in use, a read returns the latest earlier write by it, whatever drains run between
(R67, R68). -/
def Obligations.SameMnemonicReadsOwnWrite : Prop :=
  ∀ (s : State) (r u : RegNum) (ns : List Mnemonic),
    ((s.ctx.el = .el2 ∨ s.ctx.el = .el3) → s.pendKctl = [] →
        ∃ t w, exec (.msrCnthctlEl2 r) s = .next t ∧ exec (.mrsCnthctlEl2 u) (drains ns t) = .next w
          ∧ XWritten u (readX r s &&& storedMask s.cfg) (drains ns t) w)
      ∧ (s.ctx.el = .el2 → e2h s.cfg s.ctx = true → s.pendHctl = [] →
        ∃ t w, exec (.msrCntkctlEl1 r) s = .next t ∧ exec (.mrsCntkctlEl1 u) (drains ns t) = .next w
          ∧ XWritten u (readX r s &&& storedMask s.cfg) (drains ns t) w)

/-- A read by the name CNTHCTL_EL2 after a write by the name CNTKCTL_EL1, without synchronization, delivers the value
before or the value after the write; both happen, and after SYNC it delivers the value after (R68, R69). -/
def Obligations.HctlReadAfterKctlWriteIsOldOrNew : Prop :=
  ∀ (s : State) (r u : RegNum), s.ctx.el = .el2 → e2h s.cfg s.ctx = true → s.pendHctl = [] → s.pendKctl = [] →
    ∃ t, exec (.msrCntkctlEl1 r) s = .next t
      ∧ (∀ ns, ∃ w v, exec (.mrsCnthctlEl2 u) (drains ns t) = .next w ∧ XWritten u v (drains ns t) w
          ∧ (v = s.cnthctl ∨ v = readX r s &&& storedMask s.cfg))
      ∧ (∃ w, exec (.mrsCnthctlEl2 u) t = .next w ∧ XWritten u s.cnthctl t w)
      ∧ (∃ w, exec (.mrsCnthctlEl2 u) (drains [.kctl] t) = .next w
          ∧ XWritten u (readX r s &&& storedMask s.cfg) t w)
      ∧ (∃ y w, exec .sync t = .next y ∧ exec (.mrsCnthctlEl2 u) y = .next w
          ∧ XWritten u (readX r s &&& storedMask s.cfg) t w)

/-- The same with the names exchanged: a read by the name CNTKCTL_EL1 after a write by the name CNTHCTL_EL2
(R68, R69). -/
def Obligations.KctlReadAfterHctlWriteIsOldOrNew : Prop :=
  ∀ (s : State) (r u : RegNum), s.ctx.el = .el2 → e2h s.cfg s.ctx = true → s.pendHctl = [] → s.pendKctl = [] →
    ∃ t, exec (.msrCnthctlEl2 r) s = .next t
      ∧ (∀ ns, ∃ w v, exec (.mrsCntkctlEl1 u) (drains ns t) = .next w ∧ XWritten u v (drains ns t) w
          ∧ (v = s.cnthctl ∨ v = readX r s &&& storedMask s.cfg))
      ∧ (∃ w, exec (.mrsCntkctlEl1 u) t = .next w ∧ XWritten u s.cnthctl t w)
      ∧ (∃ w, exec (.mrsCntkctlEl1 u) (drains [.hctl] t) = .next w
          ∧ XWritten u (readX r s &&& storedMask s.cfg) t w)
      ∧ (∃ y w, exec .sync t = .next y ∧ exec (.mrsCntkctlEl1 u) y = .next w
          ∧ XWritten u (readX r s &&& storedMask s.cfg) t w)

/-- Of two pending writes through different mnemonics either may be the one that lasts: there are two steps of the
internal drain that leave the one, and two that leave the other (R68, R212). -/
def Obligations.EitherPendingWriteMayLast : Prop :=
  ∀ (s : State) (a b : Word), s.pendHctl = [a] → s.pendKctl = [b] →
    (∃ t, Host.Core.run Sys2Proof.core 2
        { s with agenda := [.env (.drain .hctl), .env (.drain .kctl)] } = .next t ∧ t.cnthctl = b
          ∧ t.pendHctl = [] ∧ t.pendKctl = [])
      ∧ ∃ t, Host.Core.run Sys2Proof.core 2
          { s with agenda := [.env (.drain .kctl), .env (.drain .hctl)] } = .next t ∧ t.cnthctl = a
            ∧ t.pendHctl = [] ∧ t.pendKctl = []

/-- One drain step commits the oldest pending write of its mnemonic and changes nothing else; with none pending it
is not enabled and changes nothing (R68). -/
def Obligations.DrainCommitsOldest : Prop :=
  ∀ (s : State) (rest : List Turn) (v : Word) (l : List Word),
    (s.agenda = .env (.drain .hctl) :: rest →
        (s.pendHctl = v :: l → step s = .next { s with agenda := rest, cnthctl := v, pendHctl := l })
          ∧ (s.pendHctl = [] → step s = .next { s with agenda := rest }))
      ∧ (s.agenda = .env (.drain .kctl) :: rest →
        (s.pendKctl = v :: l → step s = .next { s with agenda := rest, cnthctl := v, pendKctl := l })
          ∧ (s.pendKctl = [] → step s = .next { s with agenda := rest }))

/-- The environment supplies a context: at a change of PSTATE.EL both lists are drained, so that no pending write
survives it; without one the register and the lists stay, across a change of layout too (R39, R69). -/
def Obligations.ChangeOfLevelSynchronizes : Prop :=
  ∀ (s : State) (y : Ctx) (rest : List Turn), s.agenda = .env (.context y) :: rest →
    (y.wellFormed s.cfg = true →
        ∃ t, step s = .next t ∧ t.ctx = y ∧ t.pc = s.pc ∧ t.x = s.x ∧ t.cntkctl = s.cntkctl
          ∧ t.cPrev = s.cPrev ∧ t.agenda = rest ∧ t.outputs = s.outputs
          ∧ (y.el ≠ s.ctx.el → t.pendHctl = [] ∧ t.pendKctl = [] ∧ DrainedTo s t.cnthctl)
          ∧ (y.el = s.ctx.el → SameHctl s t))
      ∧ (y.wellFormed s.cfg = false → step s = .refused (.illFormedContext y))

/-! ## Invariants and isolation -/

/-- Every step keeps the invariant (R25, R5, R15, R68 to R70): no bit outside StoredMask is held, pending writes wait
only at the levels that can make them, the context stays one an environment can supply. -/
def Obligations.StepKeepsInvariant : Prop :=
  ∀ s t : State, s.Inv → step s = .next t → t.Inv

/-- The invariant holds right after reset, for every configuration and every environment whose context is
well-formed, and so for `State.reset` (R25, R210). That the named context of `State.reset` is well-formed is a
fact about the model's choice, log entry 4. -/
def Obligations.ResetEstablishesInvariant : Prop :=
  (∀ (c : Cfg) (e : ResetEnv), e.ctx.wellFormed c = true → (resetState c e).Inv) ∧ State.reset.Inv

/-- At EL0 and EL1 no instruction changes the register, and none can tell what it holds: with another value in it
the same instruction has the same outcome, but for that value (R189). -/
def Obligations.LowerLevelsNeitherChangeNorSeeRegister : Prop :=
  ∀ (i : Instr) (s t : State) (v : Word), (s.ctx.el = .el0 ∨ s.ctx.el = .el1) →
    s.pendHctl = [] → s.pendKctl = [] → exec i s = .next t →
      SameHctl s t ∧ exec i { s with cnthctl := v } = .next { t with cnthctl := v }

/-! ## The layouts -/

/-- FieldMask(Cfg) is exactly the set of bits that some present field of a layout that can apply covers
(R23 to R25). -/
def Obligations.FieldMaskCoversPresentFields : Prop :=
  ∀ (c : Cfg) (n : Nat), (fieldMask c).getLsbD n = true ↔
    ∃ f, (f ∈ figure .one ∨ f ∈ figure .two) ∧ fieldPresent c f = true
      ∧ fieldLo f ≤ n ∧ n < fieldLo f + fieldWidth f

/-- Layout 1 is in force exactly when HCR_EL2.E2H exists and is 1, which needs EL2 (R22). -/
def Obligations.LayoutSelectedByE2H : Prop :=
  ∀ (c : Cfg) (x : Ctx),
    (layoutInForce c x = .one ↔ c.haveEL2 = true ∧ c.haveE2H = true ∧ x.hcrE2H = true)
      ∧ (layoutInForce c x = .two ↔ ¬(c.haveEL2 = true ∧ c.haveE2H = true ∧ x.hcrE2H = true))

/-- No bit outside FieldMask(Cfg) is ever read indirectly: every trap control, the event stream, the mask overrides
and ECV are what they would be with those bits zero (R25, R26). -/
def Obligations.OnlyFieldBitsHaveEffect : Prop :=
  ∀ (c : Cfg) (x : Ctx) (v : Word),
    (∀ f a, fieldTraps f c x (v &&& fieldMask c) a = fieldTraps f c x v a)
      ∧ (∀ a, trapVerdict c x (v &&& fieldMask c) a = trapVerdict c x v a)
      ∧ (∀ p q, eventAt c x (v &&& fieldMask c) p q = eventAt c x v p q)
      ∧ maskP c x (v &&& fieldMask c) = maskP c x v ∧ maskV c x (v &&& fieldMask c) = maskV c x v
      ∧ ecvOn c x (v &&& fieldMask c) = ecvOn c x v

/-- While Layout 2 applies bits [11:8] have no effect (R39): not on an access, an event, a mask override or ECV. -/
def Obligations.LayoutTwoIgnoresBits11To8 : Prop :=
  ∀ (c : Cfg) (x : Ctx) (v w : Word), layoutInForce c x = .two →
    v &&& 0xFFFFFFFFFFFFF0FF#64 = w &&& 0xFFFFFFFFFFFFF0FF#64 →
      (∀ f a, fieldTraps f c x v a = fieldTraps f c x w a)
        ∧ (∀ a, trapVerdict c x v a = trapVerdict c x w a)
        ∧ (∀ p q, eventAt c x v p q = eventAt c x w p q)
        ∧ maskP c x v = maskP c x w ∧ maskV c x v = maskV c x w ∧ ecvOn c x v = ecvOn c x w

/-! ## The trap controls -/

/-- EL1PTEN and EL1PCTEN of Layout 1 (R123, R124): the access is stopped with FieldTrap(EL2, acc) through the field
exactly under the conditions of its rule. -/
def Obligations.LayoutOneEl1ControlsTrap : Prop :=
  ∀ (s : State) (a : Acc), AccessNext a s →
    (TrappedBy .el1pten a s ↔
        layoutInForce s.cfg s.ctx = .one ∧ s.ctx.el2Enabled = true ∧ tge s.cfg s.ctx = false
          ∧ fieldValue .el1pten s.cnthctl = 0 ∧ a.reg ∈ [.cntpCtl, .cntpCval, .cntpTval]
          ∧ a ∉ s.ctx.kTraps)
      ∧ (TrappedBy .l1El1pcten a s ↔
        layoutInForce s.cfg s.ctx = .one ∧ s.ctx.el2Enabled = true ∧ tge s.cfg s.ctx = false
          ∧ fieldValue .l1El1pcten s.cnthctl = 0 ∧ a.reg = .cntpct ∧ a ∉ s.ctx.kTraps)

/-- EL0PTEN, EL0VTEN, EL0VCTEN and EL0PCTEN of Layout 1 (R125 to R128): the access is stopped through the field
exactly under these conditions. On CNTFRQ with both bits zero the predicates of the last two hold together, and the
trap reports EL0VCTEN (R136, R137), so that a trap through EL0PCTEN is one on CNTPCT. -/
def Obligations.LayoutOneEl0ControlsTrap : Prop :=
  ∀ (s : State) (a : Acc), AccessNext a s →
    let on := layoutInForce s.cfg s.ctx = .one ∧ s.ctx.el2Enabled = true ∧ tge s.cfg s.ctx = true ∧ a.el = .el0
    (TrappedBy .el0pten a s ↔
        on ∧ fieldValue .el0pten s.cnthctl = 0 ∧ a.reg ∈ [.cntpCtl, .cntpCval, .cntpTval])
      ∧ (TrappedBy .el0vten a s ↔
        on ∧ fieldValue .el0vten s.cnthctl = 0 ∧ a.reg ∈ [.cntvCtl, .cntvCval, .cntvTval])
      ∧ (TrappedBy .el0vcten a s ↔
        on ∧ fieldValue .el0vcten s.cnthctl = 0
          ∧ (a.reg = .cntvct ∨ a.reg = .cntfrq ∧ fieldValue .el0pcten s.cnthctl = 0))
      ∧ (fieldTraps .el0pcten s.cfg s.ctx s.cnthctl a = true ↔
        on ∧ fieldValue .el0pcten s.cnthctl = 0
          ∧ (a.reg = .cntpct ∨ a.reg = .cntfrq ∧ fieldValue .el0vcten s.cnthctl = 0))
      ∧ (TrappedBy .el0pcten a s ↔
        on ∧ fieldValue .el0pcten s.cnthctl = 0 ∧ a.reg = .cntpct)

/-- EL1PCEN and EL1PCTEN of Layout 2 (R130, R131): no TGE condition; and they behave as if 1 when EL3 is implemented
and EL2 is not. -/
def Obligations.LayoutTwoControlsTrap : Prop :=
  ∀ (s : State) (a : Acc), AccessNext a s →
    (TrappedBy .el1pcen a s ↔
        layoutInForce s.cfg s.ctx = .two ∧ s.ctx.el2Enabled = true ∧ fieldValue .el1pcen s.cnthctl = 0
          ∧ a.reg ∈ [.cntpCtl, .cntpCval, .cntpTval] ∧ a ∉ s.ctx.kTraps)
      ∧ (TrappedBy .l2El1pcten a s ↔
        layoutInForce s.cfg s.ctx = .two ∧ s.ctx.el2Enabled = true ∧ fieldValue .l2El1pcten s.cnthctl = 0
          ∧ a.reg = .cntpct ∧ a ∉ s.ctx.kTraps)
      ∧ (s.ContextOk → s.cfg.haveEL3 = true → s.cfg.haveEL2 = false →
          ¬TrappedBy .el1pcen a s ∧ ¬TrappedBy .l2El1pcten a s)

/-- EL1TVT, EL1TVCT, EL1NVPCT and EL1NVVCT, in both layouts (R132 to R135): a one bit traps; and they behave as if 0
when EL3 is implemented and EL2 is not. -/
def Obligations.CommonControlsTrap : Prop :=
  ∀ (s : State) (a : Acc), AccessNext a s →
    let on := s.cfg.haveECV = true ∧ s.ctx.el2Enabled = true
      ∧ (e2h s.cfg s.ctx = false ∨ tge s.cfg s.ctx = false)
    let nested := nv2 s.cfg s.ctx = true ∧ nv1 s.cfg s.ctx = false ∧ nv s.cfg s.ctx = true
    (TrappedBy .el1tvt a s ↔ on ∧ fieldValue .el1tvt s.cnthctl = 1
        ∧ a.reg ∈ [.cntvCtl, .cntvCval, .cntvTval] ∧ a ∉ s.ctx.kTraps)
      ∧ (TrappedBy .el1tvct a s ↔ on ∧ fieldValue .el1tvct s.cnthctl = 1
        ∧ a.reg = .cntvct ∧ a ∉ s.ctx.kTraps)
      ∧ (TrappedBy .el1nvpct a s ↔ on ∧ nested ∧ fieldValue .el1nvpct s.cnthctl = 1
        ∧ a.el = .el1 ∧ a.reg ∈ [.cntpCtlEl02, .cntpCvalEl02])
      ∧ (TrappedBy .el1nvvct a s ↔ on ∧ nested ∧ fieldValue .el1nvvct s.cnthctl = 1
        ∧ a.el = .el1 ∧ a.reg ∈ [.cntvCtlEl02, .cntvCvalEl02])
      ∧ (s.ContextOk → s.cfg.haveEL3 = true → s.cfg.haveEL2 = false →
          ¬TrappedBy .el1tvt a s ∧ ¬TrappedBy .el1tvct a s ∧ ¬TrappedBy .el1nvpct a s
            ∧ ¬TrappedBy .el1nvvct a s)

/-- An access is stopped exactly when some field's predicate holds; the trap goes to EL2 with class Cfg.TrapEC(acc)
and the access is not performed: the run ends in the state before it (R136, R183, R185 as log entry
6 reads it). -/
def Obligations.AccessTrappedIffSomeFieldTraps : Prop :=
  ∀ (s : State) (a : Acc), AccessNext a s →
    ((∃ r, step s = .fault r) ↔ ∃ f, fieldTraps f s.cfg s.ctx s.cnthctl a = true)
      ∧ ∀ r, step s = .fault r → ∃ f fin, r = .fieldTrap .el2 a (Config.trapEC a) f fin
          ∧ fieldTraps f s.cfg s.ctx s.cnthctl a = true
          ∧ EndsAt { s with agenda := s.agenda.tail } fin

/-- An access that this register does not stop: the verdict is an output and nothing else changes (R57, R136). That
the verdict stands in the field `outputs` is the model's form of an output, log entry 11. -/
def Obligations.AccessNotStoppedOutputsVerdict : Prop :=
  ∀ (s : State) (a : Acc), AccessNext a s → (∀ f, fieldTraps f s.cfg s.ctx s.cnthctl a = false) →
    step s = .next { s with
      agenda := s.agenda.tail
      outputs := s.outputs ++
        [.verdict a (if a ∈ s.ctx.kTraps then .byOther else .notByThisRegister)] }

/-- The trap by the named control of CNTKCTL_EL1 or CNTKCTL takes precedence: in a context an environment can
supply, an access with KTrap is ByOther, whatever the register holds (R122, R136, R184). -/
def Obligations.KernelControlTrapWins : Prop :=
  ∀ (c : Cfg) (x : Ctx) (v : Word) (a : Acc), x.wellFormed c = true → a ∈ x.kTraps →
    trapVerdict c x v a = .byOther

/-- At most one control applies to an access, but for EL0VCTEN with EL0PCTEN on CNTFRQ (R137). -/
def Obligations.AtMostOneControlApplies : Prop :=
  ∀ (c : Cfg) (x : Ctx) (v : Word) (a : Acc) (f g : Field),
    fieldTraps f c x v a = true → fieldTraps g c x v a = true →
      f = g ∨ (a.reg = .cntfrq ∧ (f = .el0vcten ∧ g = .el0pcten ∨ f = .el0pcten ∧ g = .el0vcten))

/-- The frequency register (R129): an access to CNTFRQ is trapped exactly at EL0 in Layout 1 with EL2 enabled,
TGE == 1 and bits [1] and [0] both zero; under Layout 2 this register never traps it. -/
def Obligations.FrequencyRegisterTrappedExactly : Prop :=
  ∀ (c : Cfg) (x : Ctx) (v : Word) (a : Acc), a.reg = .cntfrq →
    ((∃ f, fieldTraps f c x v a = true) ↔
      a.el = .el0 ∧ layoutInForce c x = .one ∧ x.el2Enabled = true ∧ tge c x = true
        ∧ v.getLsbD 1 = false ∧ v.getLsbD 0 = false)
      ∧ ((∃ f, trapVerdict c x v a = .toEL2 f) ↔ ∃ f, fieldTraps f c x v a = true)

/-- The register has no effect if EL2 is not enabled, whatever the stored value; since EL2Enabled() implies
HaveEL2, none when EL2 is not implemented (R120). -/
def Obligations.NoEffectUnlessEl2Enabled : Prop :=
  ∀ (c : Cfg) (x : Ctx) (v : Word),
    (x.el2Enabled = false → NoEffect c x v)
      ∧ (x.wellFormed c = true → c.haveEL2 = false → NoEffect c x v)

/-- No predicate of the trap controls reads the ECV bit, nor does the scale of the event stream; they depend on
Cfg.HaveECV: without it the four common controls trap nothing (R139). -/
def Obligations.EcvBitTrapsNothing : Prop :=
  ∀ (c : Cfg) (x : Ctx) (v : Word),
    (∀ f a, fieldTraps f c x (v ^^^ 0x1000#64) a = fieldTraps f c x v a)
      ∧ trigIdx c (v ^^^ 0x1000#64) = trigIdx c v
      ∧ (c.haveECV = false → ∀ a, ∀ f ∈ [Field.el1tvt, .el1tvct, .el1nvpct, .el1nvvct],
          fieldTraps f c x v a = false)

/-! ## Event stream, masks, ECV -/

/-- A counter update (R160 to R163): an Event exactly when the stream is on and the trigger bit makes the transition
that EVNTDIR selects; c_prev takes the new value and nothing else changes. -/
def Obligations.CounterUpdateEmitsSelectedTransition : Prop :=
  ∀ (s : State) (p q : Word) (rest : List Turn), s.agenda = .env (.counter q) :: rest → s.cPrev = some p →
    let k := fieldValue .evnti s.cnthctl
      + (if s.cfg.haveECV = true ∧ fieldValue .evntis s.cnthctl = 1 then 8 else 0)
    let rises := p.getLsbD k = false ∧ q.getLsbD k = true
    let falls := p.getLsbD k = true ∧ q.getLsbD k = false
    step s = .next { s with
      agenda := rest
      cPrev := some q
      outputs :=
        if s.ctx.el2Enabled = true ∧ fieldValue .evnten s.cnthctl = 1
            ∧ (fieldValue .evntdir s.cnthctl = 0 ∧ rises ∨ fieldValue .evntdir s.cnthctl = 1 ∧ falls)
        then s.outputs ++ [.event] else s.outputs }

/-- The first counter value only initialises c_prev and emits nothing (R55, R163). -/
def Obligations.FirstCounterValueEmitsNothing : Prop :=
  ∀ (s : State) (q : Word) (rest : List Turn), s.agenda = .env (.counter q) :: rest → s.cPrev = none →
    step s = .next { s with agenda := rest, cPrev := some q }

/-- With the stream on and a counter that increments by one, events come every 2^(TrigIdx+1) updates, in either
direction: exactly one in any 2^(TrigIdx+1) consecutive updates, from any counter value (R163 corner case a). -/
def Obligations.OneEventPerPeriod : Prop :=
  ∀ (s : State) (p : Word), s.cPrev = some p → streamOn s.ctx s.cnthctl = true →
    let period := 2 ^ (trigIdx s.cfg s.cnthctl + 1)
    s.agenda = (List.range period).map (fun j => .env (.counter (p + BitVec.ofNat 64 (j + 1)))) →
      Host.Core.run Sys2Proof.core period s =
        .next { s with
          agenda := [], cPrev := some (p + BitVec.ofNat 64 period), outputs := s.outputs ++ [.event] }

/-- Only counter updates emit events: no other step does, a write to the selection fields among them; and outputs,
once emitted, stay (R163 corner case c, R169, R188). That outputs are held in a field and stay there, is log entry 11,
and that a reset keeps them log entry 10: the model's choices. -/
def Obligations.OnlyCounterUpdatesEmitEvents : Prop :=
  ∀ s t : State, step s = .next t →
    s.outputs <+: t.outputs
      ∧ (t.outputs.count .event ≠ s.outputs.count .event → ∃ q rest, s.agenda = .env (.counter q) :: rest)

/-- The mask overrides (R164, R165): EffIMASK is the stored IMASK or the override, which needs the mask bits, EL2
enabled, a Security state beyond the two named, and the field at 1; a direct read returns the stored bit. -/
def Obligations.MaskOverrideSetsEffectiveMask : Prop :=
  ∀ s : State,
    (effImaskP s = true ↔ s.ctx.imaskP = true
        ∨ (s.cfg.haveMaskBits = true ∧ s.ctx.el2Enabled = true ∧ s.ctx.security = .other
            ∧ fieldValue .cntpmask s.cnthctl = 1))
      ∧ (effImaskV s = true ↔ s.ctx.imaskV = true
        ∨ (s.cfg.haveMaskBits = true ∧ s.ctx.el2Enabled = true ∧ s.ctx.security = .other
            ∧ fieldValue .cntvmask s.cnthctl = 1))
      ∧ directImaskP s = s.ctx.imaskP ∧ directImaskV s = s.ctx.imaskV

/-- In Non-secure and Secure state the mask bits have no effect whatever they hold, and an accessor reads and writes
the register the same way in every Security state (R168). -/
def Obligations.SecurityStateRemovesEffectNotStorage : Prop :=
  (∀ (c : Cfg) (x : Ctx) (v : Word), x.security ≠ .other → maskP c x v = false ∧ maskV c x v = false)
    ∧ ∀ (z : SecurityState) (i : Instr) (s t : State), i ≠ .sync → exec i s = .next t →
        exec i { s with ctx := { s.ctx with security := z } }
          = .next { t with ctx := { t.ctx with security := z } }

/-- ECVEnabled (R166). -/
def Obligations.EcvEnabledExactly : Prop :=
  ∀ s : State, ecvEnabled s = true ↔
    s.cfg.haveECV = true ∧ fieldValue .ecv s.cnthctl = 1 ∧ s.ctx.el2Enabled = true
      ∧ (s.ctx.scrNS = true ∨ s.ctx.scrEEL2 = true)
      ∧ (e2h s.cfg s.ctx = false ∨ tge s.cfg s.ctx = false)

/-- A change of HCR_EL2.E2H does not disturb the event stream or the mask overrides (R170). -/
def Obligations.LayoutChangeLeavesStreamAndMasks : Prop :=
  ∀ (c : Cfg) (x : Ctx) (v p q : Word) (b : Bool),
    eventAt c { x with hcrE2H := b } v p q = eventAt c x v p q
      ∧ maskP c { x with hcrE2H := b } v = maskP c x v ∧ maskV c { x with hcrE2H := b } v = maskV c x v

/-! ## Reset -/

/-- Reset (R210), at the start of a run and during one: the register takes ResetValue AND StoredMask, the lists are
empty, what the spec leaves unconstrained or to the environment is what the environment supplies, and c_prev is absent,
so that a counter value that comes next only fills it. That the program, the turns and the outputs survive a reset
during a run is the model's reading, log entry 10; that an ill-formed context is refused, log entry 12. -/
def Obligations.ResetGivesResetValues : Prop :=
  (∀ (c : Cfg) (e : ResetEnv),
      (resetState c e).cnthctl = c.resetValue &&& storedMask c ∧ (resetState c e).pendHctl = []
        ∧ (resetState c e).pendKctl = [] ∧ (resetState c e).cntkctl = e.cntkctl ∧ (resetState c e).x = e.x
        ∧ (resetState c e).pc = e.pc ∧ (resetState c e).ctx = e.ctx ∧ (resetState c e).cPrev = none)
    ∧ ∀ (s : State) (e : ResetEnv) (rest : List Turn), s.agenda = .env (.reset e) :: rest →
        (e.ctx.wellFormed s.cfg = true →
          ∃ t, step s = .next t ∧ t.cnthctl = s.cfg.resetValue &&& storedMask s.cfg
            ∧ t.pendHctl = [] ∧ t.pendKctl = [] ∧ t.cntkctl = e.cntkctl ∧ t.x = e.x ∧ t.pc = e.pc
            ∧ t.ctx = e.ctx ∧ t.cPrev = none ∧ t.cfg = s.cfg ∧ t.program = s.program ∧ t.progBase = s.progBase
            ∧ t.agenda = rest ∧ t.outputs = s.outputs
            ∧ ∀ q l, rest = .env (.counter q) :: l → step t = .next { t with agenda := l, cPrev := some q })
          ∧ (e.ctx.wellFormed s.cfg = false → step s = .refused (.illFormedContext e.ctx))

/-- The first read after reset delivers ResetValue AND StoredMask, for every configuration (95 §9, R100, R210). -/
def Obligations.FirstReadAfterReset : Prop :=
  ∀ (c : Cfg) (e : ResetEnv) (r : RegNum), (e.ctx.el = .el2 ∨ e.ctx.el = .el3) →
    ∃ t, exec (.mrsCnthctlEl2 r) (resetState c e) = .next t
      ∧ XWritten r (c.resetValue &&& storedMask c) (resetState c e) t
end

