-- ==== Sys2Proof/Laws/State.lean ====
section
/-! SUPPORT. One lemma per field per named update of State: which field an update writes, and that it leaves the
others alone, so that no later proof unfolds a record update. -/

namespace Sys2Proof.Machine

/-! `advance` -/

@[simp] theorem advance_cfg (s : State) : (advance s).cfg = s.cfg := rfl
@[simp] theorem advance_cnthctl (s : State) : (advance s).cnthctl = s.cnthctl := rfl
@[simp] theorem advance_pendHctl (s : State) : (advance s).pendHctl = s.pendHctl := rfl
@[simp] theorem advance_pendKctl (s : State) : (advance s).pendKctl = s.pendKctl := rfl
@[simp] theorem advance_cntkctl (s : State) : (advance s).cntkctl = s.cntkctl := rfl
@[simp] theorem advance_x (s : State) : (advance s).x = s.x := rfl
@[simp] theorem advance_pc (s : State) : (advance s).pc = nextPc s.pc := rfl
@[simp] theorem advance_ctx (s : State) : (advance s).ctx = s.ctx := rfl
@[simp] theorem advance_cPrev (s : State) : (advance s).cPrev = s.cPrev := rfl
@[simp] theorem advance_progBase (s : State) : (advance s).progBase = s.progBase := rfl
@[simp] theorem advance_program (s : State) : (advance s).program = s.program := rfl
@[simp] theorem advance_agenda (s : State) : (advance s).agenda = s.agenda := rfl
@[simp] theorem advance_outputs (s : State) : (advance s).outputs = s.outputs := rfl
@[simp] theorem advance_freeIndex (s : State) : (advance s).freeIndex = s.freeIndex := rfl

/-! `commit` -/

@[simp] theorem commit_cfg (v : Word) (s : State) : (commit v s).cfg = s.cfg := rfl
@[simp] theorem commit_cnthctl (v : Word) (s : State) : (commit v s).cnthctl = v := rfl
@[simp] theorem commit_pendHctl (v : Word) (s : State) : (commit v s).pendHctl = s.pendHctl := rfl
@[simp] theorem commit_pendKctl (v : Word) (s : State) : (commit v s).pendKctl = s.pendKctl := rfl
@[simp] theorem commit_cntkctl (v : Word) (s : State) : (commit v s).cntkctl = s.cntkctl := rfl
@[simp] theorem commit_x (v : Word) (s : State) : (commit v s).x = s.x := rfl
@[simp] theorem commit_pc (v : Word) (s : State) : (commit v s).pc = s.pc := rfl
@[simp] theorem commit_ctx (v : Word) (s : State) : (commit v s).ctx = s.ctx := rfl
@[simp] theorem commit_cPrev (v : Word) (s : State) : (commit v s).cPrev = s.cPrev := rfl
@[simp] theorem commit_progBase (v : Word) (s : State) : (commit v s).progBase = s.progBase := rfl
@[simp] theorem commit_program (v : Word) (s : State) : (commit v s).program = s.program := rfl
@[simp] theorem commit_agenda (v : Word) (s : State) : (commit v s).agenda = s.agenda := rfl
@[simp] theorem commit_outputs (v : Word) (s : State) : (commit v s).outputs = s.outputs := rfl
@[simp] theorem commit_freeIndex (v : Word) (s : State) : (commit v s).freeIndex = s.freeIndex := rfl

/-! `writeKctl` -/

@[simp] theorem writeKctl_cfg (v : Word) (s : State) : (writeKctl v s).cfg = s.cfg := rfl
@[simp] theorem writeKctl_cnthctl (v : Word) (s : State) : (writeKctl v s).cnthctl = s.cnthctl := rfl
@[simp] theorem writeKctl_pendHctl (v : Word) (s : State) : (writeKctl v s).pendHctl = s.pendHctl := rfl
@[simp] theorem writeKctl_pendKctl (v : Word) (s : State) : (writeKctl v s).pendKctl = s.pendKctl := rfl
@[simp] theorem writeKctl_cntkctl (v : Word) (s : State) : (writeKctl v s).cntkctl = v := rfl
@[simp] theorem writeKctl_x (v : Word) (s : State) : (writeKctl v s).x = s.x := rfl
@[simp] theorem writeKctl_pc (v : Word) (s : State) : (writeKctl v s).pc = s.pc := rfl
@[simp] theorem writeKctl_ctx (v : Word) (s : State) : (writeKctl v s).ctx = s.ctx := rfl
@[simp] theorem writeKctl_cPrev (v : Word) (s : State) : (writeKctl v s).cPrev = s.cPrev := rfl
@[simp] theorem writeKctl_progBase (v : Word) (s : State) : (writeKctl v s).progBase = s.progBase := rfl
@[simp] theorem writeKctl_program (v : Word) (s : State) : (writeKctl v s).program = s.program := rfl
@[simp] theorem writeKctl_agenda (v : Word) (s : State) : (writeKctl v s).agenda = s.agenda := rfl
@[simp] theorem writeKctl_outputs (v : Word) (s : State) : (writeKctl v s).outputs = s.outputs := rfl
@[simp] theorem writeKctl_freeIndex (v : Word) (s : State) : (writeKctl v s).freeIndex = s.freeIndex := rfl

/-! `countChoice` -/

@[simp] theorem countChoice_cfg (s : State) : (countChoice s).cfg = s.cfg := rfl
@[simp] theorem countChoice_cnthctl (s : State) : (countChoice s).cnthctl = s.cnthctl := rfl
@[simp] theorem countChoice_pendHctl (s : State) : (countChoice s).pendHctl = s.pendHctl := rfl
@[simp] theorem countChoice_pendKctl (s : State) : (countChoice s).pendKctl = s.pendKctl := rfl
@[simp] theorem countChoice_cntkctl (s : State) : (countChoice s).cntkctl = s.cntkctl := rfl
@[simp] theorem countChoice_x (s : State) : (countChoice s).x = s.x := rfl
@[simp] theorem countChoice_pc (s : State) : (countChoice s).pc = s.pc := rfl
@[simp] theorem countChoice_ctx (s : State) : (countChoice s).ctx = s.ctx := rfl
@[simp] theorem countChoice_cPrev (s : State) : (countChoice s).cPrev = s.cPrev := rfl
@[simp] theorem countChoice_progBase (s : State) : (countChoice s).progBase = s.progBase := rfl
@[simp] theorem countChoice_program (s : State) : (countChoice s).program = s.program := rfl
@[simp] theorem countChoice_agenda (s : State) : (countChoice s).agenda = s.agenda := rfl
@[simp] theorem countChoice_outputs (s : State) : (countChoice s).outputs = s.outputs := rfl
@[simp] theorem countChoice_freeIndex (s : State) : (countChoice s).freeIndex = s.freeIndex + 1 := rfl

/-! `emit` -/

@[simp] theorem emit_cfg (o : Output) (s : State) : (emit o s).cfg = s.cfg := rfl
@[simp] theorem emit_cnthctl (o : Output) (s : State) : (emit o s).cnthctl = s.cnthctl := rfl
@[simp] theorem emit_pendHctl (o : Output) (s : State) : (emit o s).pendHctl = s.pendHctl := rfl
@[simp] theorem emit_pendKctl (o : Output) (s : State) : (emit o s).pendKctl = s.pendKctl := rfl
@[simp] theorem emit_cntkctl (o : Output) (s : State) : (emit o s).cntkctl = s.cntkctl := rfl
@[simp] theorem emit_x (o : Output) (s : State) : (emit o s).x = s.x := rfl
@[simp] theorem emit_pc (o : Output) (s : State) : (emit o s).pc = s.pc := rfl
@[simp] theorem emit_ctx (o : Output) (s : State) : (emit o s).ctx = s.ctx := rfl
@[simp] theorem emit_cPrev (o : Output) (s : State) : (emit o s).cPrev = s.cPrev := rfl
@[simp] theorem emit_progBase (o : Output) (s : State) : (emit o s).progBase = s.progBase := rfl
@[simp] theorem emit_program (o : Output) (s : State) : (emit o s).program = s.program := rfl
@[simp] theorem emit_agenda (o : Output) (s : State) : (emit o s).agenda = s.agenda := rfl
@[simp] theorem emit_outputs (o : Output) (s : State) : (emit o s).outputs = s.outputs ++ [o] := rfl
@[simp] theorem emit_freeIndex (o : Output) (s : State) : (emit o s).freeIndex = s.freeIndex := rfl

/-! `setPrev` -/

@[simp] theorem setPrev_cfg (q : Word) (s : State) : (setPrev q s).cfg = s.cfg := rfl
@[simp] theorem setPrev_cnthctl (q : Word) (s : State) : (setPrev q s).cnthctl = s.cnthctl := rfl
@[simp] theorem setPrev_pendHctl (q : Word) (s : State) : (setPrev q s).pendHctl = s.pendHctl := rfl
@[simp] theorem setPrev_pendKctl (q : Word) (s : State) : (setPrev q s).pendKctl = s.pendKctl := rfl
@[simp] theorem setPrev_cntkctl (q : Word) (s : State) : (setPrev q s).cntkctl = s.cntkctl := rfl
@[simp] theorem setPrev_x (q : Word) (s : State) : (setPrev q s).x = s.x := rfl
@[simp] theorem setPrev_pc (q : Word) (s : State) : (setPrev q s).pc = s.pc := rfl
@[simp] theorem setPrev_ctx (q : Word) (s : State) : (setPrev q s).ctx = s.ctx := rfl
@[simp] theorem setPrev_cPrev (q : Word) (s : State) : (setPrev q s).cPrev = some q := rfl
@[simp] theorem setPrev_progBase (q : Word) (s : State) : (setPrev q s).progBase = s.progBase := rfl
@[simp] theorem setPrev_program (q : Word) (s : State) : (setPrev q s).program = s.program := rfl
@[simp] theorem setPrev_agenda (q : Word) (s : State) : (setPrev q s).agenda = s.agenda := rfl
@[simp] theorem setPrev_outputs (q : Word) (s : State) : (setPrev q s).outputs = s.outputs := rfl
@[simp] theorem setPrev_freeIndex (q : Word) (s : State) : (setPrev q s).freeIndex = s.freeIndex := rfl

/-! `writeX` -/

@[simp] theorem writeX_cfg (t : RegNum) (v : Word) (s : State) : (writeX t v s).cfg = s.cfg := by
  unfold writeX; split <;> rfl
@[simp] theorem writeX_cnthctl (t : RegNum) (v : Word) (s : State) : (writeX t v s).cnthctl = s.cnthctl := by
  unfold writeX; split <;> rfl
@[simp] theorem writeX_pendHctl (t : RegNum) (v : Word) (s : State) : (writeX t v s).pendHctl = s.pendHctl := by
  unfold writeX; split <;> rfl
@[simp] theorem writeX_pendKctl (t : RegNum) (v : Word) (s : State) : (writeX t v s).pendKctl = s.pendKctl := by
  unfold writeX; split <;> rfl
@[simp] theorem writeX_cntkctl (t : RegNum) (v : Word) (s : State) : (writeX t v s).cntkctl = s.cntkctl := by
  unfold writeX; split <;> rfl
@[simp] theorem writeX_pc (t : RegNum) (v : Word) (s : State) : (writeX t v s).pc = s.pc := by
  unfold writeX; split <;> rfl
@[simp] theorem writeX_ctx (t : RegNum) (v : Word) (s : State) : (writeX t v s).ctx = s.ctx := by
  unfold writeX; split <;> rfl
@[simp] theorem writeX_cPrev (t : RegNum) (v : Word) (s : State) : (writeX t v s).cPrev = s.cPrev := by
  unfold writeX; split <;> rfl
@[simp] theorem writeX_progBase (t : RegNum) (v : Word) (s : State) : (writeX t v s).progBase = s.progBase := by
  unfold writeX; split <;> rfl
@[simp] theorem writeX_program (t : RegNum) (v : Word) (s : State) : (writeX t v s).program = s.program := by
  unfold writeX; split <;> rfl
@[simp] theorem writeX_agenda (t : RegNum) (v : Word) (s : State) : (writeX t v s).agenda = s.agenda := by
  unfold writeX; split <;> rfl
@[simp] theorem writeX_outputs (t : RegNum) (v : Word) (s : State) : (writeX t v s).outputs = s.outputs := by
  unfold writeX; split <;> rfl
@[simp] theorem writeX_freeIndex (t : RegNum) (v : Word) (s : State) : (writeX t v s).freeIndex = s.freeIndex := by
  unfold writeX; split <;> rfl

/-! `finishRead` -/

@[simp] theorem finishRead_cfg (t : RegNum) (v : Word) (s : State) : (finishRead t v s).cfg = s.cfg := by
  simp [finishRead]
@[simp] theorem finishRead_cnthctl (t : RegNum) (v : Word) (s : State) : (finishRead t v s).cnthctl = s.cnthctl := by
  simp [finishRead]
@[simp] theorem finishRead_pendHctl (t : RegNum) (v : Word) (s : State) : (finishRead t v s).pendHctl = s.pendHctl := by
  simp [finishRead]
@[simp] theorem finishRead_pendKctl (t : RegNum) (v : Word) (s : State) : (finishRead t v s).pendKctl = s.pendKctl := by
  simp [finishRead]
@[simp] theorem finishRead_cntkctl (t : RegNum) (v : Word) (s : State) : (finishRead t v s).cntkctl = s.cntkctl := by
  simp [finishRead]
@[simp] theorem finishRead_pc (t : RegNum) (v : Word) (s : State) : (finishRead t v s).pc = nextPc s.pc := by
  simp [finishRead]
@[simp] theorem finishRead_ctx (t : RegNum) (v : Word) (s : State) : (finishRead t v s).ctx = s.ctx := by
  simp [finishRead]
@[simp] theorem finishRead_cPrev (t : RegNum) (v : Word) (s : State) : (finishRead t v s).cPrev = s.cPrev := by
  simp [finishRead]
@[simp] theorem finishRead_progBase (t : RegNum) (v : Word) (s : State) : (finishRead t v s).progBase = s.progBase := by
  simp [finishRead]
@[simp] theorem finishRead_program (t : RegNum) (v : Word) (s : State) : (finishRead t v s).program = s.program := by
  simp [finishRead]
@[simp] theorem finishRead_agenda (t : RegNum) (v : Word) (s : State) : (finishRead t v s).agenda = s.agenda := by
  simp [finishRead]
@[simp] theorem finishRead_outputs (t : RegNum) (v : Word) (s : State) : (finishRead t v s).outputs = s.outputs := by
  simp [finishRead]
@[simp] theorem finishRead_freeIndex (t : RegNum) (v : Word) (s : State) : (finishRead t v s).freeIndex = s.freeIndex := by
  simp [finishRead]
@[simp] theorem finishRead_x (t : RegNum) (v : Word) (s : State) :
    (finishRead t v s).x = (writeX t v s).x := rfl

/-! `setPend` -/

@[simp] theorem setPend_cfg (n : Mnemonic) (l : List Word) (s : State) : (setPend n l s).cfg = s.cfg := by
  cases n <;> rfl
@[simp] theorem setPend_cnthctl (n : Mnemonic) (l : List Word) (s : State) : (setPend n l s).cnthctl = s.cnthctl := by
  cases n <;> rfl
@[simp] theorem setPend_cntkctl (n : Mnemonic) (l : List Word) (s : State) : (setPend n l s).cntkctl = s.cntkctl := by
  cases n <;> rfl
@[simp] theorem setPend_x (n : Mnemonic) (l : List Word) (s : State) : (setPend n l s).x = s.x := by
  cases n <;> rfl
@[simp] theorem setPend_pc (n : Mnemonic) (l : List Word) (s : State) : (setPend n l s).pc = s.pc := by
  cases n <;> rfl
@[simp] theorem setPend_ctx (n : Mnemonic) (l : List Word) (s : State) : (setPend n l s).ctx = s.ctx := by
  cases n <;> rfl
@[simp] theorem setPend_cPrev (n : Mnemonic) (l : List Word) (s : State) : (setPend n l s).cPrev = s.cPrev := by
  cases n <;> rfl
@[simp] theorem setPend_progBase (n : Mnemonic) (l : List Word) (s : State) : (setPend n l s).progBase = s.progBase := by
  cases n <;> rfl
@[simp] theorem setPend_program (n : Mnemonic) (l : List Word) (s : State) : (setPend n l s).program = s.program := by
  cases n <;> rfl
@[simp] theorem setPend_agenda (n : Mnemonic) (l : List Word) (s : State) : (setPend n l s).agenda = s.agenda := by
  cases n <;> rfl
@[simp] theorem setPend_outputs (n : Mnemonic) (l : List Word) (s : State) : (setPend n l s).outputs = s.outputs := by
  cases n <;> rfl
@[simp] theorem setPend_freeIndex (n : Mnemonic) (l : List Word) (s : State) : (setPend n l s).freeIndex = s.freeIndex := by
  cases n <;> rfl
@[simp] theorem setPend_hctl_pendHctl (l : List Word) (s : State) : (setPend .hctl l s).pendHctl = l := rfl
@[simp] theorem setPend_hctl_pendKctl (l : List Word) (s : State) :
    (setPend .hctl l s).pendKctl = s.pendKctl := rfl
@[simp] theorem setPend_kctl_pendHctl (l : List Word) (s : State) :
    (setPend .kctl l s).pendHctl = s.pendHctl := rfl
@[simp] theorem setPend_kctl_pendKctl (l : List Word) (s : State) : (setPend .kctl l s).pendKctl = l := rfl

/-! `writeHctl` -/

@[simp] theorem writeHctl_cfg (n : Mnemonic) (v : Word) (s : State) : (writeHctl n v s).cfg = s.cfg := by
  simp [writeHctl]
@[simp] theorem writeHctl_cnthctl (n : Mnemonic) (v : Word) (s : State) : (writeHctl n v s).cnthctl = s.cnthctl := by
  simp [writeHctl]
@[simp] theorem writeHctl_cntkctl (n : Mnemonic) (v : Word) (s : State) : (writeHctl n v s).cntkctl = s.cntkctl := by
  simp [writeHctl]
@[simp] theorem writeHctl_x (n : Mnemonic) (v : Word) (s : State) : (writeHctl n v s).x = s.x := by
  simp [writeHctl]
@[simp] theorem writeHctl_pc (n : Mnemonic) (v : Word) (s : State) : (writeHctl n v s).pc = s.pc := by
  simp [writeHctl]
@[simp] theorem writeHctl_ctx (n : Mnemonic) (v : Word) (s : State) : (writeHctl n v s).ctx = s.ctx := by
  simp [writeHctl]
@[simp] theorem writeHctl_cPrev (n : Mnemonic) (v : Word) (s : State) : (writeHctl n v s).cPrev = s.cPrev := by
  simp [writeHctl]
@[simp] theorem writeHctl_progBase (n : Mnemonic) (v : Word) (s : State) : (writeHctl n v s).progBase = s.progBase := by
  simp [writeHctl]
@[simp] theorem writeHctl_program (n : Mnemonic) (v : Word) (s : State) : (writeHctl n v s).program = s.program := by
  simp [writeHctl]
@[simp] theorem writeHctl_agenda (n : Mnemonic) (v : Word) (s : State) : (writeHctl n v s).agenda = s.agenda := by
  simp [writeHctl]
@[simp] theorem writeHctl_outputs (n : Mnemonic) (v : Word) (s : State) : (writeHctl n v s).outputs = s.outputs := by
  simp [writeHctl]
@[simp] theorem writeHctl_freeIndex (n : Mnemonic) (v : Word) (s : State) : (writeHctl n v s).freeIndex = s.freeIndex := by
  simp [writeHctl]
@[simp] theorem writeHctl_hctl_pendHctl (v : Word) (s : State) :
    (writeHctl .hctl v s).pendHctl = s.pendHctl ++ [storedValue s.cfg v] := rfl
@[simp] theorem writeHctl_hctl_pendKctl (v : Word) (s : State) :
    (writeHctl .hctl v s).pendKctl = s.pendKctl := rfl
@[simp] theorem writeHctl_kctl_pendHctl (v : Word) (s : State) :
    (writeHctl .kctl v s).pendHctl = s.pendHctl := rfl
@[simp] theorem writeHctl_kctl_pendKctl (v : Word) (s : State) :
    (writeHctl .kctl v s).pendKctl = s.pendKctl ++ [storedValue s.cfg v] := rfl

/-! `drain` -/

@[simp] theorem drain_cfg (n : Mnemonic) (s : State) : (drain n s).cfg = s.cfg := by
  unfold drain; split <;> simp
@[simp] theorem drain_cntkctl (n : Mnemonic) (s : State) : (drain n s).cntkctl = s.cntkctl := by
  unfold drain; split <;> simp
@[simp] theorem drain_x (n : Mnemonic) (s : State) : (drain n s).x = s.x := by
  unfold drain; split <;> simp
@[simp] theorem drain_pc (n : Mnemonic) (s : State) : (drain n s).pc = s.pc := by
  unfold drain; split <;> simp
@[simp] theorem drain_ctx (n : Mnemonic) (s : State) : (drain n s).ctx = s.ctx := by
  unfold drain; split <;> simp
@[simp] theorem drain_cPrev (n : Mnemonic) (s : State) : (drain n s).cPrev = s.cPrev := by
  unfold drain; split <;> simp
@[simp] theorem drain_progBase (n : Mnemonic) (s : State) : (drain n s).progBase = s.progBase := by
  unfold drain; split <;> simp
@[simp] theorem drain_program (n : Mnemonic) (s : State) : (drain n s).program = s.program := by
  unfold drain; split <;> simp
@[simp] theorem drain_agenda (n : Mnemonic) (s : State) : (drain n s).agenda = s.agenda := by
  unfold drain; split <;> simp
@[simp] theorem drain_outputs (n : Mnemonic) (s : State) : (drain n s).outputs = s.outputs := by
  unfold drain; split <;> simp
@[simp] theorem drain_freeIndex (n : Mnemonic) (s : State) : (drain n s).freeIndex = s.freeIndex := by
  unfold drain; split <;> simp

/-! `syncOne` -/

@[simp] theorem syncOne_cfg (s : State) : (syncOne s).cfg = s.cfg := by
  unfold syncOne; split <;> simp
@[simp] theorem syncOne_cntkctl (s : State) : (syncOne s).cntkctl = s.cntkctl := by
  unfold syncOne; split <;> simp
@[simp] theorem syncOne_x (s : State) : (syncOne s).x = s.x := by
  unfold syncOne; split <;> simp
@[simp] theorem syncOne_pc (s : State) : (syncOne s).pc = s.pc := by
  unfold syncOne; split <;> simp
@[simp] theorem syncOne_ctx (s : State) : (syncOne s).ctx = s.ctx := by
  unfold syncOne; split <;> simp
@[simp] theorem syncOne_cPrev (s : State) : (syncOne s).cPrev = s.cPrev := by
  unfold syncOne; split <;> simp
@[simp] theorem syncOne_progBase (s : State) : (syncOne s).progBase = s.progBase := by
  unfold syncOne; split <;> simp
@[simp] theorem syncOne_program (s : State) : (syncOne s).program = s.program := by
  unfold syncOne; split <;> simp
@[simp] theorem syncOne_agenda (s : State) : (syncOne s).agenda = s.agenda := by
  unfold syncOne; split <;> simp
@[simp] theorem syncOne_outputs (s : State) : (syncOne s).outputs = s.outputs := by
  unfold syncOne; split <;> simp

/-! `synchronize` -/

@[simp] theorem syncSteps_cfg (k : Nat) (s : State) : (syncSteps k s).cfg = s.cfg := by
  induction k generalizing s with
  | zero => rfl
  | succ k ih => simp [syncSteps, ih]
@[simp] theorem synchronize_cfg (s : State) : (synchronize s).cfg = s.cfg := by
  simp [synchronize]
@[simp] theorem syncSteps_cntkctl (k : Nat) (s : State) : (syncSteps k s).cntkctl = s.cntkctl := by
  induction k generalizing s with
  | zero => rfl
  | succ k ih => simp [syncSteps, ih]
@[simp] theorem synchronize_cntkctl (s : State) : (synchronize s).cntkctl = s.cntkctl := by
  simp [synchronize]
@[simp] theorem syncSteps_x (k : Nat) (s : State) : (syncSteps k s).x = s.x := by
  induction k generalizing s with
  | zero => rfl
  | succ k ih => simp [syncSteps, ih]
@[simp] theorem synchronize_x (s : State) : (synchronize s).x = s.x := by
  simp [synchronize]
@[simp] theorem syncSteps_pc (k : Nat) (s : State) : (syncSteps k s).pc = s.pc := by
  induction k generalizing s with
  | zero => rfl
  | succ k ih => simp [syncSteps, ih]
@[simp] theorem synchronize_pc (s : State) : (synchronize s).pc = s.pc := by
  simp [synchronize]
@[simp] theorem syncSteps_ctx (k : Nat) (s : State) : (syncSteps k s).ctx = s.ctx := by
  induction k generalizing s with
  | zero => rfl
  | succ k ih => simp [syncSteps, ih]
@[simp] theorem synchronize_ctx (s : State) : (synchronize s).ctx = s.ctx := by
  simp [synchronize]
@[simp] theorem syncSteps_cPrev (k : Nat) (s : State) : (syncSteps k s).cPrev = s.cPrev := by
  induction k generalizing s with
  | zero => rfl
  | succ k ih => simp [syncSteps, ih]
@[simp] theorem synchronize_cPrev (s : State) : (synchronize s).cPrev = s.cPrev := by
  simp [synchronize]
@[simp] theorem syncSteps_progBase (k : Nat) (s : State) : (syncSteps k s).progBase = s.progBase := by
  induction k generalizing s with
  | zero => rfl
  | succ k ih => simp [syncSteps, ih]
@[simp] theorem synchronize_progBase (s : State) : (synchronize s).progBase = s.progBase := by
  simp [synchronize]
@[simp] theorem syncSteps_program (k : Nat) (s : State) : (syncSteps k s).program = s.program := by
  induction k generalizing s with
  | zero => rfl
  | succ k ih => simp [syncSteps, ih]
@[simp] theorem synchronize_program (s : State) : (synchronize s).program = s.program := by
  simp [synchronize]
@[simp] theorem syncSteps_agenda (k : Nat) (s : State) : (syncSteps k s).agenda = s.agenda := by
  induction k generalizing s with
  | zero => rfl
  | succ k ih => simp [syncSteps, ih]
@[simp] theorem synchronize_agenda (s : State) : (synchronize s).agenda = s.agenda := by
  simp [synchronize]
@[simp] theorem syncSteps_outputs (k : Nat) (s : State) : (syncSteps k s).outputs = s.outputs := by
  induction k generalizing s with
  | zero => rfl
  | succ k ih => simp [syncSteps, ih]
@[simp] theorem synchronize_outputs (s : State) : (synchronize s).outputs = s.outputs := by
  simp [synchronize]

/-! `counterUpdate` -/

@[simp] theorem counterUpdate_cfg (q : Word) (s : State) : (counterUpdate q s).cfg = s.cfg := by
  unfold counterUpdate; split <;> [skip; split] <;> rfl
@[simp] theorem counterUpdate_cnthctl (q : Word) (s : State) : (counterUpdate q s).cnthctl = s.cnthctl := by
  unfold counterUpdate; split <;> [skip; split] <;> rfl
@[simp] theorem counterUpdate_pendHctl (q : Word) (s : State) : (counterUpdate q s).pendHctl = s.pendHctl := by
  unfold counterUpdate; split <;> [skip; split] <;> rfl
@[simp] theorem counterUpdate_pendKctl (q : Word) (s : State) : (counterUpdate q s).pendKctl = s.pendKctl := by
  unfold counterUpdate; split <;> [skip; split] <;> rfl
@[simp] theorem counterUpdate_cntkctl (q : Word) (s : State) : (counterUpdate q s).cntkctl = s.cntkctl := by
  unfold counterUpdate; split <;> [skip; split] <;> rfl
@[simp] theorem counterUpdate_x (q : Word) (s : State) : (counterUpdate q s).x = s.x := by
  unfold counterUpdate; split <;> [skip; split] <;> rfl
@[simp] theorem counterUpdate_pc (q : Word) (s : State) : (counterUpdate q s).pc = s.pc := by
  unfold counterUpdate; split <;> [skip; split] <;> rfl
@[simp] theorem counterUpdate_ctx (q : Word) (s : State) : (counterUpdate q s).ctx = s.ctx := by
  unfold counterUpdate; split <;> [skip; split] <;> rfl
@[simp] theorem counterUpdate_progBase (q : Word) (s : State) : (counterUpdate q s).progBase = s.progBase := by
  unfold counterUpdate; split <;> [skip; split] <;> rfl
@[simp] theorem counterUpdate_program (q : Word) (s : State) : (counterUpdate q s).program = s.program := by
  unfold counterUpdate; split <;> [skip; split] <;> rfl
@[simp] theorem counterUpdate_agenda (q : Word) (s : State) : (counterUpdate q s).agenda = s.agenda := by
  unfold counterUpdate; split <;> [skip; split] <;> rfl
@[simp] theorem counterUpdate_freeIndex (q : Word) (s : State) : (counterUpdate q s).freeIndex = s.freeIndex := by
  unfold counterUpdate; split <;> [skip; split] <;> rfl
@[simp] theorem counterUpdate_cPrev (q : Word) (s : State) : (counterUpdate q s).cPrev = some q := by
  unfold counterUpdate; split <;> rfl

/-! `changeContext` -/

@[simp] theorem changeContext_cfg (y : Ctx) (s : State) : (changeContext y s).cfg = s.cfg := by
  unfold changeContext; split <;> simp
@[simp] theorem changeContext_cntkctl (y : Ctx) (s : State) : (changeContext y s).cntkctl = s.cntkctl := by
  unfold changeContext; split <;> simp
@[simp] theorem changeContext_x (y : Ctx) (s : State) : (changeContext y s).x = s.x := by
  unfold changeContext; split <;> simp
@[simp] theorem changeContext_pc (y : Ctx) (s : State) : (changeContext y s).pc = s.pc := by
  unfold changeContext; split <;> simp
@[simp] theorem changeContext_cPrev (y : Ctx) (s : State) : (changeContext y s).cPrev = s.cPrev := by
  unfold changeContext; split <;> simp
@[simp] theorem changeContext_progBase (y : Ctx) (s : State) : (changeContext y s).progBase = s.progBase := by
  unfold changeContext; split <;> simp
@[simp] theorem changeContext_program (y : Ctx) (s : State) : (changeContext y s).program = s.program := by
  unfold changeContext; split <;> simp
@[simp] theorem changeContext_agenda (y : Ctx) (s : State) : (changeContext y s).agenda = s.agenda := by
  unfold changeContext; split <;> simp
@[simp] theorem changeContext_outputs (y : Ctx) (s : State) : (changeContext y s).outputs = s.outputs := by
  unfold changeContext; split <;> simp
@[simp] theorem changeContext_ctx (y : Ctx) (s : State) : (changeContext y s).ctx = y := by
  unfold changeContext; split <;> rfl

end Sys2Proof.Machine
end

