-- ==== Sys2Proof/Laws/Ops.lean ====
section
/-! SUPPORT. For each shared operation, one lemma that says everything it can do: the register file, the pending
lists, drain, Sync, the privilege tests. -/

namespace Sys2Proof.Machine

/-! The register file (R50, R107). -/

@[simp] theorem readX_zr (s : State) : readX 31#5 s = 0#64 := rfl

theorem writeX_zr (v : Word) (s : State) : writeX 31#5 v s = s := rfl

theorem regNum_lt_of_ne (t : RegNum) (h : t ≠ 31#5) : t.toNat < 31 := by
  have := t.isLt
  have : t.toNat ≠ 31 := fun e => h (BitVec.eq_of_toNat_eq e)
  omega

/-- Every register after a register write: the read-after-write law and the frame in one. -/
theorem readX_writeX (t u : RegNum) (v : Word) (s : State) :
    readX u (writeX t v s) = if u = t ∧ t ≠ 31#5 then v else readX u s := by
  by_cases ht : t = 31#5
  · simp [ht, writeX_zr]
  · have hlt := regNum_lt_of_ne t ht
    by_cases hu : u = t
    · subst hu; simp [readX, writeX, hlt, ht]
    · have hne : t.toNat ≠ u.toNat := fun e => hu (BitVec.eq_of_toNat_eq e.symm)
      simp only [readX, writeX, hlt, dite_true, hu, false_and, if_false]
      split <;> simp [hne]

theorem xWritten_finishRead (t : RegNum) (v : Word) (s : State) : XWritten t v s (finishRead t v s) :=
  fun u => readX_writeX t u v s

@[simp] theorem readX_of_x_eq (u : RegNum) {s t : State} (h : t.x = s.x) : readX u t = readX u s := by
  simp only [readX, h]

/-- pc + 4 below the top of the address space (R106). -/
theorem nextPc_of_lt {pc : Word} (h : pc.toNat + 4 < 2 ^ 64) : nextPc pc = pc + 4#64 := if_pos h

theorem pcAdvanced_of_pc {s t : State} (h : t.pc = nextPc s.pc) : PcAdvanced s t :=
  fun hlt => h.trans (nextPc_of_lt hlt)

/-! The pending lists (R67, R68). -/

@[simp] theorem pend_hctl (s : State) : pend .hctl s = s.pendHctl := rfl
@[simp] theorem pend_kctl (s : State) : pend .kctl s = s.pendKctl := rfl

theorem pend_setPend (m n : Mnemonic) (l : List Word) (s : State) :
    pend m (setPend n l s) = if m = n then l else pend m s := by
  cases m <;> cases n <;> rfl

@[simp] theorem pend_commit (n : Mnemonic) (v : Word) (s : State) : pend n (commit v s) = pend n s := by
  cases n <;> rfl

/-- drain with nothing pending: not enabled, no change (R68). -/
theorem drain_of_nil {n : Mnemonic} {s : State} (h : pend n s = []) : drain n s = s := by
  simp [drain, h]

/-- drain with something pending: the head is committed, the tail stays (R68). -/
theorem drain_of_cons {n : Mnemonic} {s : State} {v : Word} {l : List Word} (h : pend n s = v :: l) :
    drain n s = commit v (setPend n l s) := by
  simp [drain, h]

theorem pend_drain (m n : Mnemonic) (s : State) :
    pend m (drain n s) = if m = n then (pend n s).tail else pend m s := by
  cases h : pend n s with
  | nil => by_cases e : m = n <;> simp [drain_of_nil h, e, h]
  | cons v l => simp [drain_of_cons h, pend_setPend]

/-- The value a drain commits: the oldest pending write of its mnemonic, if there is one (R68). -/
theorem drain_cnthctl (n : Mnemonic) (s : State) :
    (drain n s).cnthctl = (pend n s).head?.getD s.cnthctl := by
  cases h : pend n s with
  | nil => simp [drain_of_nil h]
  | cons v l => simp [drain_of_cons h]

/-- What a write through a mnemonic leaves pending (R68, R105). -/
theorem pend_writeHctl (m n : Mnemonic) (v : Word) (s : State) :
    pend m (writeHctl n v s) = if m = n then pend n s ++ [storedValue s.cfg v] else pend m s := by
  simp [writeHctl, pend_setPend]

/-- A read through the mnemonic of the latest write returns what the write stores (R67). -/
theorem readHctl_writeHctl (n : Mnemonic) (v : Word) (s : State) :
    readHctl n (writeHctl n v s) = storedValue s.cfg v := by
  simp [readHctl, pend_writeHctl]

theorem readHctl_of_nil {n : Mnemonic} {s : State} (h : pend n s = []) : readHctl n s = s.cnthctl := by
  simp [readHctl, h]

/-- A drain of a mnemonic's own list does not change what a read through it returns (R67). -/
theorem readHctl_drain_self (n : Mnemonic) (s : State) : readHctl n (drain n s) = readHctl n s := by
  cases h : pend n s with
  | nil => rw [drain_of_nil h]
  | cons v l =>
    rw [drain_of_cons h]
    cases l <;> simp [readHctl, h, pend_setPend, List.getLast?_cons]

/-! Sync (R68, R69). -/

/-- Every field that Sync does not name is unchanged. -/
theorem synchronize_sameSurroundings (s : State) : SameSurroundings s (synchronize s) := by
  simp [SameSurroundings]

theorem syncOne_length (s : State) :
    (syncOne s).pendHctl.length + (syncOne s).pendKctl.length
      = s.pendHctl.length + s.pendKctl.length - 1 := by
  have hp : ∀ n (u : State), (drain n u).pendHctl = pend .hctl (drain n u)
      ∧ (drain n u).pendKctl = pend .kctl (drain n u) := fun _ _ => ⟨rfl, rfl⟩
  unfold syncOne
  split
  · simp_all
  · rename_i v l hH hK
    rw [(hp _ _).1, (hp _ _).2]; simp [pend_drain, hH, hK]
  · rename_i v l hH hK
    rw [(hp _ _).1, (hp _ _).2]; simp [pend_drain, hH, hK]
  · rename_i v l w m hH hK
    rw [(hp _ _).1, (hp _ _).2]
    cases Config.drainChoice s.freeIndex
    · simp [pend_drain, hH, hK]; omega
    · simp [pend_drain, hH, hK]

theorem syncSteps_lists (k : Nat) (s : State) (h : s.pendHctl.length + s.pendKctl.length ≤ k) :
    (syncSteps k s).pendHctl = [] ∧ (syncSteps k s).pendKctl = [] := by
  induction k generalizing s with
  | zero =>
    simp only [Nat.le_zero, Nat.add_eq_zero_iff, List.length_eq_zero_iff] at h
    simpa [syncSteps] using h
  | succ k ih => exact ih _ (by rw [syncOne_length]; omega)

@[simp] theorem synchronize_pendHctl (s : State) : (synchronize s).pendHctl = [] :=
  (syncSteps_lists _ s le_rfl).1

@[simp] theorem synchronize_pendKctl (s : State) : (synchronize s).pendKctl = [] :=
  (syncSteps_lists _ s le_rfl).2

/-- One drain inside Sync keeps the set of values the whole Sync can commit. -/
theorem drainedTo_of_syncOne (s : State) (v : Word) (h : DrainedTo (syncOne s) v) : DrainedTo s v := by
  unfold syncOne at h
  split at h
  · exact h
  · rename_i a l hH hK
    rw [drain_of_cons (v := a) (l := l) (by simpa using hH)] at h
    cases l <;> simp_all [DrainedTo, List.getLast?_cons]
  · rename_i a l hH hK
    rw [drain_of_cons (v := a) (l := l) (by simpa using hK)] at h
    cases l <;> simp_all [DrainedTo, List.getLast?_cons]
  · rename_i a l b m hH hK
    cases hc : Config.drainChoice s.freeIndex with
    | hctl =>
      rw [hc, drain_of_cons (v := a) (l := l) (by simpa using hH)] at h
      cases l <;> simp_all [DrainedTo, List.getLast?_cons]
    | kctl =>
      rw [hc, drain_of_cons (v := b) (l := m) (by simpa using hK)] at h
      cases m <;> simp_all [DrainedTo, List.getLast?_cons]

theorem syncSteps_drainedTo (k : Nat) (s : State) (h : s.pendHctl.length + s.pendKctl.length ≤ k) :
    DrainedTo s (syncSteps k s).cnthctl := by
  induction k generalizing s with
  | zero =>
    simp only [Nat.le_zero, Nat.add_eq_zero_iff, List.length_eq_zero_iff] at h
    simp [syncSteps, DrainedTo, h.1, h.2]
  | succ k ih => exact drainedTo_of_syncOne s _ (ih _ (by rw [syncOne_length]; omega))

/-- All that Sync does (R68, R69). -/
theorem synchronize_spec (s : State) : Synchronized s (synchronize s) := by
  refine ⟨by simp, by simp, syncSteps_drainedTo _ s le_rfl, synchronize_x s, synchronize_cntkctl s,
    synchronize_sameSurroundings s⟩

/-- With nothing pending Sync changes nothing (R69). -/
theorem synchronize_of_nil {s : State} (hH : s.pendHctl = []) (hK : s.pendKctl = []) : synchronize s = s := by
  simp [synchronize, hH, hK, syncSteps]

/-- The state of a raise (R185). -/
theorem endOfRun_spec (s : State) : EndsAt s (endOfRun s) :=
  ⟨synchronize_spec s, synchronize_pc s⟩

/-! The privilege tests of the accessors (R108): what each can answer. -/

theorem accessCnthctl_next {y : Syndrome} {d s t : State} (h : accessCnthctl y d s = .next t) :
    (s.ctx.el = .el2 ∨ s.ctx.el = .el3) ∧ t = d := by
  unfold accessCnthctl raiseUndefined raiseSystemAccessTrap at h
  cases he : s.ctx.el <;> simp only [he] at h
  · cases h
  · split at h <;> cases h
  · cases h; exact ⟨.inl rfl, rfl⟩
  · cases h; exact ⟨.inr rfl, rfl⟩

theorem accessCnthctl_fault {y : Syndrome} {d s : State} {r : Fault} (h : accessCnthctl y d s = .fault r) :
    (s.ctx.el = .el0 ∧ r = .undefined s.pc (endOfRun s))
      ∨ (s.ctx.el = .el1 ∧ (s.ctx.el2Enabled && nv s.cfg s.ctx) = true
          ∧ r = .systemAccessTrap .el2 0x18#6 y s.pc (endOfRun s))
      ∨ (s.ctx.el = .el1 ∧ (s.ctx.el2Enabled && nv s.cfg s.ctx) = false
          ∧ r = .undefined s.pc (endOfRun s)) := by
  unfold accessCnthctl raiseUndefined raiseSystemAccessTrap at h
  cases he : s.ctx.el <;> simp only [he] at h
  · cases h; exact .inl ⟨rfl, rfl⟩
  · split at h <;> cases h
    · rename_i hc; exact .inr (.inl ⟨rfl, hc, rfl⟩)
    · rename_i hc; exact .inr (.inr ⟨rfl, by simpa using hc, rfl⟩)
  · cases h
  · cases h

theorem accessCnthctl_not_refused {y : Syndrome} {d s : State} {r : Refusal} :
    accessCnthctl y d s ≠ .refused r := by
  intro h
  unfold accessCnthctl raiseUndefined raiseSystemAccessTrap at h
  cases he : s.ctx.el <;> simp only [he] at h
  · cases h
  · split at h <;> cases h
  · cases h
  · cases h

theorem accessCntkctl_next {c d s t : State} (h : accessCntkctl c d s = .next t) :
    (t = d ∧ s.ctx.el = .el2 ∧ e2h s.cfg s.ctx = true)
      ∨ (t = c ∧ (s.ctx.el = .el1 ∨ s.ctx.el = .el3 ∨ (s.ctx.el = .el2 ∧ e2h s.cfg s.ctx = false))) := by
  unfold accessCntkctl raiseUndefined at h
  cases he : s.ctx.el <;> simp only [he] at h
  · cases h
  · cases h; exact .inr ⟨rfl, .inl rfl⟩
  · split at h <;> cases h
    · rename_i hc; exact .inl ⟨rfl, rfl, hc⟩
    · rename_i hc; exact .inr ⟨rfl, .inr (.inr ⟨rfl, by simpa using hc⟩)⟩
  · cases h; exact .inr ⟨rfl, .inr (.inl rfl)⟩

theorem accessCntkctl_fault {c d s : State} {r : Fault} (h : accessCntkctl c d s = .fault r) :
    s.ctx.el = .el0 ∧ r = .undefined s.pc (endOfRun s) := by
  unfold accessCntkctl raiseUndefined at h
  cases he : s.ctx.el <;> simp only [he] at h
  · cases h; exact ⟨rfl, rfl⟩
  · cases h
  · split at h <;> cases h
  · cases h

end Sys2Proof.Machine
end

