-- ==== Sys2Proof/Laws/Controls.lean ====
section
/-! SUPPORT. The indirect readers of the register: what a field's value has to do with its bit, what the verdict can
be, what a counter update can do. -/

namespace Sys2Proof.Machine

/-- A field of one bit holds its bit (R23). -/
theorem fieldValue_of_bit {f : Field} (h : fieldWidth f = 1) (v : Word) :
    fieldValue f v = (bit v (fieldLo f)).toNat := by
  simp only [fieldValue, h, bit, BitVec.getLsbD, Nat.testBit, Nat.shiftRight_eq_div_pow, pow_one]
  rcases Nat.mod_two_eq_zero_or_one (v.toNat / 2 ^ fieldLo f) with e | e <;> simp [e]

theorem fieldValue_eq_one_iff {f : Field} (h : fieldWidth f = 1) (v : Word) :
    fieldValue f v = 1 ↔ bit v (fieldLo f) = true := by
  rw [fieldValue_of_bit h]; cases bit v (fieldLo f) <;> simp

theorem fieldValue_eq_zero_iff {f : Field} (h : fieldWidth f = 1) (v : Word) :
    fieldValue f v = 0 ↔ bit v (fieldLo f) = false := by
  rw [fieldValue_of_bit h]; cases bit v (fieldLo f) <;> simp

/-- EVNTI is 0 to 15 (R40). -/
theorem fieldValue_evnti_lt (v : Word) : fieldValue .evnti v < 16 := Nat.mod_lt _ (by decide)

/-- The trigger index is 0 to 23 (R161). -/
theorem trigIdx_lt (c : Cfg) (v : Word) : trigIdx c v < 24 := by
  have := fieldValue_evnti_lt v
  unfold trigIdx; split <;> omega

@[simp] theorem bit_and (v w : Word) (n : Nat) : bit (v &&& w) n = (bit v n && bit w n) :=
  BitVec.getLsbD_and

/-- The fields of the two groups of controls, and all others: those of file 42, which trap nothing. -/
theorem mem_controls_or_inert (f : Field) (c : Cfg) (x : Ctx) (v : Word) (a : Acc) :
    f ∈ controlsBeforeKTrap ∨ f ∈ controlsAfterKTrap ∨ fieldTraps f c x v a = false := by
  cases f <;> simp [controlsBeforeKTrap, controlsAfterKTrap, fieldTraps]

/-- All that the verdict can be (R136). -/
theorem trapVerdict_cases (c : Cfg) (x : Ctx) (v : Word) (a : Acc) :
    (∃ f, trapVerdict c x v a = .toEL2 f ∧ fieldTraps f c x v a = true)
      ∨ (trapVerdict c x v a = .byOther ∧ kTrap x a = true
          ∧ ∀ f ∈ controlsBeforeKTrap, fieldTraps f c x v a = false)
      ∨ (trapVerdict c x v a = .notByThisRegister ∧ kTrap x a = false ∧ ∀ f, fieldTraps f c x v a = false) := by
  unfold trapVerdict
  cases h1 : controlsBeforeKTrap.find? (fun f => fieldTraps f c x v a) with
  | some f => exact .inl ⟨f, rfl, by simpa using List.find?_some h1⟩
  | none =>
    have n1 : ∀ f ∈ controlsBeforeKTrap, fieldTraps f c x v a = false := by
      simpa [List.find?_eq_none] using h1
    by_cases hk : kTrap x a = true
    · exact .inr (.inl ⟨by simp [hk], hk, n1⟩)
    · simp only [hk, if_false, Bool.false_eq_true]
      cases h2 : controlsAfterKTrap.find? (fun f => fieldTraps f c x v a) with
      | some f => exact .inl ⟨f, rfl, by simpa using List.find?_some h2⟩
      | none =>
        have n2 : ∀ f ∈ controlsAfterKTrap, fieldTraps f c x v a = false := by
          simpa [List.find?_eq_none] using h2
        refine .inr (.inr ⟨rfl, by simp, fun f => ?_⟩)
        rcases mem_controls_or_inert f c x v a with m | m | m
        · exact n1 f m
        · exact n2 f m
        · exact m

/-- A verdict ToEL2(f) rests on the predicate of f (R136). -/
theorem fieldTraps_of_trapVerdict {c : Cfg} {x : Ctx} {v : Word} {a : Acc} {f : Field}
    (h : trapVerdict c x v a = .toEL2 f) : fieldTraps f c x v a = true := by
  rcases trapVerdict_cases c x v a with ⟨g, e, hg⟩ | ⟨e, -⟩ | ⟨e, -⟩ <;> rw [e] at h <;> cases h
  exact hg

/-- All that a counter update does (R163). -/
theorem counterUpdate_spec (q : Word) (s : State) :
    counterUpdate q s =
      { s with
        cPrev := some q
        outputs := match s.cPrev with
          | none => s.outputs
          | some p => if eventAt s.cfg s.ctx s.cnthctl p q then s.outputs ++ [.event] else s.outputs } := by
  unfold counterUpdate
  cases h : s.cPrev with
  | none => rfl
  | some p => by_cases e : eventAt s.cfg s.ctx s.cnthctl p q <;> simp [e, setPrev, emit]

/-- What a change of context does to the register's state (R69): at a change of level it is Sync, else nothing. -/
theorem changeContext_same {y : Ctx} {s : State} (h : y.el = s.ctx.el) :
    changeContext y s = { s with ctx := y } := if_pos h

theorem changeContext_level {y : Ctx} {s : State} (h : y.el ≠ s.ctx.el) :
    changeContext y s = { synchronize s with ctx := y } := if_neg h

/-- All that an access turn can answer (R136, R183). -/
theorem accessTurn_cases (a : Acc) (s : State) :
    (a.wellFormed s.cfg s.ctx = false ∧ accessTurn a s = .refused (.illFormedAccess a))
      ∨ (a.wellFormed s.cfg s.ctx = true
          ∧ ((∃ f, trapVerdict s.cfg s.ctx s.cnthctl a = .toEL2 f ∧ accessTurn a s = raiseFieldTrap f a s)
            ∨ (∃ v, (v = .byOther ∨ v = .notByThisRegister) ∧ trapVerdict s.cfg s.ctx s.cnthctl a = v
                ∧ accessTurn a s = .next (emit (.verdict a v) s)))) := by
  unfold accessTurn
  by_cases hw : a.wellFormed s.cfg s.ctx = true
  · refine .inr ⟨hw, ?_⟩
    rw [if_pos hw]
    cases hv : trapVerdict s.cfg s.ctx s.cnthctl a with
    | toEL2 f => exact .inl ⟨f, rfl, rfl⟩
    | byOther => exact .inr ⟨_, .inl rfl, rfl, rfl⟩
    | notByThisRegister => exact .inr ⟨_, .inr rfl, rfl, rfl⟩
  · exact .inl ⟨by simpa using hw, by simp [hw]⟩

end Sys2Proof.Machine
end

