-- ==== Sys2Proof/Laws/Decode.lean ====
section
/-! SUPPORT. The decoder and the encoder, field by field. -/

namespace Sys2Proof

/-! The fields of a word that is assembled from them (R81). -/

@[simp] theorem inSysregFormat_accessWord (r : Bool) (p : SysregPoint) (t : RegNum) :
    inSysregFormat (accessWord r p t) = true := by
  have : accessWord r p t &&& 0xFFD00000#32 = 0xD5100000#32 := by
    apply BitVec.eq_of_getLsbD_eq
    intro i hi
    interval_cases i <;> simp [accessWord]
  simp [inSysregFormat, this]

@[simp] theorem wordReads_accessWord (r : Bool) (p : SysregPoint) (t : RegNum) :
    wordReads (accessWord r p t) = r := by
  simp [wordReads, accessWord]

@[simp] theorem wordRt_accessWord (r : Bool) (p : SysregPoint) (t : RegNum) :
    wordRt (accessWord r p t) = t := by
  apply BitVec.eq_of_getLsbD_eq
  intro i hi
  interval_cases i <;> simp [wordRt, accessWord]

/-- The point of an assembled word is the point it was assembled from, where op0 has its top bit set (R81). -/
theorem wordPoint_accessWord (r : Bool) (p : SysregPoint) (t : RegNum) (h : p.op0.getLsbD 1 = true) :
    wordPoint (accessWord r p t) = p := by
  obtain ⟨op0, op1, crn, crm, op2⟩ := p
  simp only [wordPoint, SysregPoint.mk.injEq]
  refine ⟨?_, ?_, ?_, ?_, ?_⟩ <;> apply BitVec.eq_of_getLsbD_eq <;> intro i hi <;>
    interval_cases i <;> simp_all [accessWord]

/-- A word of the format is assembled from its own fields (R81). -/
theorem eq_accessWord_of_format (w : InstrWord) (h : inSysregFormat w = true) :
    w = accessWord (wordReads w) (wordPoint w) (wordRt w) := by
  have hw : w &&& 0xFFD00000#32 = 0xD5100000#32 := by simpa [inSysregFormat] using h
  have hb : ∀ i, (w.getLsbD i && (0xFFD00000#32).getLsbD i) = (0xD5100000#32).getLsbD i := by
    intro i; rw [← BitVec.getLsbD_and, hw]
  have h31 := hb 31; have h30 := hb 30; have h29 := hb 29; have h28 := hb 28; have h27 := hb 27
  have h26 := hb 26; have h25 := hb 25; have h24 := hb 24; have h23 := hb 23; have h22 := hb 22
  have h20 := hb 20
  clear hb hw h
  apply BitVec.eq_of_getLsbD_eq
  intro i hi
  interval_cases i <;>
    simp_all [accessWord, wordPoint, wordReads, wordRt]

@[simp] theorem sysregAt_sysregPoint (n : SysregName) : sysregAt (sysregPoint n) = some n := by
  cases n <;> rfl

/-- A point that has a name is the point of that name (R60). -/
theorem eq_sysregPoint_of_sysregAt {p : SysregPoint} {n : SysregName} (h : sysregAt p = some n) :
    p = sysregPoint n := by
  unfold sysregAt at h
  split at h
  · cases h; assumption
  · split at h <;> cases h
    assumption

/-- All that the decoder can answer (R88, R92). -/
theorem decode_cases (w : InstrWord) :
    (w = syncWord ∧ decode w = .instr .sync)
      ∨ (∃ n r t, w = accessWord r (sysregPoint n) t ∧ decode w = .instr (accessorOf n r t))
      ∨ (w ≠ syncWord ∧ (∀ n r t, w ≠ accessWord r (sysregPoint n) t) ∧ decode w = .notInScope w) := by
  by_cases hs : w = syncWord
  · exact .inl ⟨hs, by simp [decode, hs]⟩
  · by_cases hf : inSysregFormat w = true
    · cases hp : sysregAt (wordPoint w) with
      | some n =>
        refine .inr (.inl ⟨n, wordReads w, wordRt w, ?_, by simp [decode, hs, hf, hp]⟩)
        rw [← eq_sysregPoint_of_sysregAt hp]
        exact eq_accessWord_of_format w hf
      | none =>
        refine .inr (.inr ⟨hs, ?_, by simp [decode, hs, hf, hp]⟩)
        rintro n r t rfl
        rw [wordPoint_accessWord _ _ _ (by cases n <;> rfl)] at hp
        simp at hp
    · refine .inr (.inr ⟨hs, ?_, by simp [decode, hs, hf]⟩)
      rintro n r t rfl
      exact hf (by simp)

/-- The words of the accessors are none of SYNC's (R92). -/
theorem accessWord_ne_syncWord (n : SysregName) (r : Bool) (t : RegNum) :
    accessWord r (sysregPoint n) t ≠ syncWord := by
  intro h
  have := inSysregFormat_accessWord r (sysregPoint n) t
  rw [h] at this
  exact absurd this (by decide)

end Sys2Proof
end

