-- ==== Sys2Proof/Laws/PerInstr.lean ====
section
/-! SUPPORT. The statements made per instruction: each instruction's word lies in its row of the opcode table. -/

namespace Sys2Proof.Laws.EncodesItsTableRow

/-- The mask of an instruction's row (R84, R92). -/
def rowMask : Instr → InstrWord
  | .mrsCnthctlEl2 _ => 0xFFFFFFE0#32
  | .msrCnthctlEl2 _ => 0xFFFFFFE0#32
  | .mrsCntkctlEl1 _ => 0xFFFFFFE0#32
  | .msrCntkctlEl1 _ => 0xFFFFFFE0#32
  | .sync => 0xFFFFFFFF#32

/-- The match of an instruction's row (R84, R92). -/
def rowMatch : Instr → InstrWord
  | .mrsCnthctlEl2 _ => 0xD53CE100#32
  | .msrCnthctlEl2 _ => 0xD51CE100#32
  | .mrsCntkctlEl1 _ => 0xD538E100#32
  | .msrCntkctlEl1 _ => 0xD518E100#32
  | .sync => 0xD5033FDF#32

/-- The operand an instruction carries in bits [4:0] (R83). -/
def operand : Instr → Option RegNum
  | .mrsCnthctlEl2 t => some t
  | .msrCnthctlEl2 t => some t
  | .mrsCntkctlEl1 t => some t
  | .msrCntkctlEl1 t => some t
  | .sync => none

/-- The instruction's word lies in its table row and carries its operand in bits [4:0] (R83, R84). -/
def Statement (i : Instr) : Prop :=
  encode i &&& rowMask i = rowMatch i ∧ ∀ t, operand i = some t → (encode i).extractLsb' 0 5 = t

theorem statement_of_word {w m k : InstrWord} {t : RegNum} (hm : w &&& m = k)
    (ht : w.extractLsb' 0 5 = t) (o : Option RegNum) (ho : o = some t) :
    w &&& m = k ∧ ∀ u, o = some u → w.extractLsb' 0 5 = u :=
  ⟨hm, fun u hu => by rw [ht]; exact Option.some.inj (ho.symm.trans hu)⟩

theorem mrsCnthctlEl2 (t : RegNum) : Statement (.mrsCnthctlEl2 t) :=
  statement_of_word (by revert t; decide) (by revert t; decide) _ rfl

theorem msrCnthctlEl2 (t : RegNum) : Statement (.msrCnthctlEl2 t) :=
  statement_of_word (by revert t; decide) (by revert t; decide) _ rfl

theorem mrsCntkctlEl1 (t : RegNum) : Statement (.mrsCntkctlEl1 t) :=
  statement_of_word (by revert t; decide) (by revert t; decide) _ rfl

theorem msrCntkctlEl1 (t : RegNum) : Statement (.msrCntkctlEl1 t) :=
  statement_of_word (by revert t; decide) (by revert t; decide) _ rfl

theorem sync : Statement .sync :=
  ⟨by decide, fun _ h => by cases h⟩

end Sys2Proof.Laws.EncodesItsTableRow
end

