-- ==== Sys2Proof/Laws/Step.lean ====
section
/-! SUPPORT. What exec and step can do: the inversion lemmas that claims about every step rest on. -/

namespace Sys2Proof.Machine

/-- The next states of an instruction: one case per way to complete (R69, R100 to R103, R108). -/
theorem exec_next_cases {i : Instr} {s t : State} (h : exec i s = .next t) :
    (∃ r, i = .mrsCnthctlEl2 r ∧ (s.ctx.el = .el2 ∨ s.ctx.el = .el3)
        ∧ t = finishRead r (readHctl .hctl s) s)
      ∨ (∃ r, i = .msrCnthctlEl2 r ∧ (s.ctx.el = .el2 ∨ s.ctx.el = .el3)
        ∧ t = advance (writeHctl .hctl (readX r s) s))
      ∨ (∃ r, i = .mrsCntkctlEl1 r ∧ s.ctx.el = .el2 ∧ e2h s.cfg s.ctx = true
        ∧ t = finishRead r (readHctl .kctl s) s)
      ∨ (∃ r, i = .mrsCntkctlEl1 r ∧ s.ctx.el ≠ .el0 ∧ t = finishRead r s.cntkctl s)
      ∨ (∃ r, i = .msrCntkctlEl1 r ∧ s.ctx.el = .el2 ∧ e2h s.cfg s.ctx = true
        ∧ t = advance (writeHctl .kctl (readX r s) s))
      ∨ (∃ r, i = .msrCntkctlEl1 r ∧ s.ctx.el ≠ .el0 ∧ t = advance (writeKctl (readX r s) s))
      ∨ (i = .sync ∧ t = advance (synchronize s)) := by
  have notEl0 : ∀ {e : EL}, (e = .el1 ∨ e = .el3 ∨ (e = .el2 ∧ e2h s.cfg s.ctx = false)) → e ≠ .el0 := by
    rintro e (rfl | rfl | ⟨rfl, -⟩) <;> decide
  cases i with
  | mrsCnthctlEl2 r =>
    obtain ⟨he, rfl⟩ := accessCnthctl_next h
    exact .inl ⟨r, rfl, he, rfl⟩
  | msrCnthctlEl2 r =>
    obtain ⟨he, rfl⟩ := accessCnthctl_next h
    exact .inr (.inl ⟨r, rfl, he, rfl⟩)
  | mrsCntkctlEl1 r =>
    rcases accessCntkctl_next h with ⟨rfl, he, hc⟩ | ⟨rfl, he⟩
    · exact .inr (.inr (.inl ⟨r, rfl, he, hc, rfl⟩))
    · exact .inr (.inr (.inr (.inl ⟨r, rfl, notEl0 he, rfl⟩)))
  | msrCntkctlEl1 r =>
    rcases accessCntkctl_next h with ⟨rfl, he, hc⟩ | ⟨rfl, he⟩
    · exact .inr (.inr (.inr (.inr (.inl ⟨r, rfl, he, hc, rfl⟩))))
    · exact .inr (.inr (.inr (.inr (.inr (.inl ⟨r, rfl, notEl0 he, rfl⟩)))))
  | sync =>
    cases h
    exact .inr (.inr (.inr (.inr (.inr (.inr ⟨rfl, rfl⟩)))))

/-- The faults of an instruction: all three of the accessors' raises end in `endOfRun` (R181, R182, R185). -/
theorem exec_fault_cases {i : Instr} {s : State} {r : Fault} (h : exec i s = .fault r) :
    r = .undefined s.pc (endOfRun s)
      ∨ ∃ t b, r = .systemAccessTrap .el2 0x18#6 (cnthctlSyndrome t b) s.pc (endOfRun s)
          ∧ s.ctx.el = .el1 ∧ (s.ctx.el2Enabled && nv s.cfg s.ctx) = true := by
  cases i with
  | mrsCnthctlEl2 t =>
    rcases accessCnthctl_fault h with ⟨-, e⟩ | ⟨h1, h2, e⟩ | ⟨-, -, e⟩
    · exact .inl e
    · exact .inr ⟨t, true, e, h1, h2⟩
    · exact .inl e
  | msrCnthctlEl2 t =>
    rcases accessCnthctl_fault h with ⟨-, e⟩ | ⟨h1, h2, e⟩ | ⟨-, -, e⟩
    · exact .inl e
    · exact .inr ⟨t, false, e, h1, h2⟩
    · exact .inl e
  | mrsCntkctlEl1 t => exact .inl (accessCntkctl_fault h).2
  | msrCntkctlEl1 t => exact .inl (accessCntkctl_fault h).2
  | sync => cases h

/-- A turn of the PE that answers a next state has run an instruction (R61, R92). -/
theorem peTurn_next {s t : State} (h : peTurn s = .next t) :
    ∃ w i, fetch s = .word w ∧ decode w = .instr i ∧ exec i s = .next t := by
  unfold peTurn at h
  split at h
  · cases h
  · rename_i w hf
    split at h
    · rename_i i hd; exact ⟨w, i, hf, hd, h⟩
    · cases h

/-- A turn of the PE that faults has run an instruction that faults. -/
theorem peTurn_fault {s : State} {r : Fault} (h : peTurn s = .fault r) :
    ∃ w i, fetch s = .word w ∧ decode w = .instr i ∧ exec i s = .fault r := by
  unfold peTurn at h
  split at h
  · cases h
  · rename_i w hf
    split at h
    · rename_i i hd; exact ⟨w, i, hf, hd, h⟩
    · cases h

/-- The next states of a turn of the environment or of the drain step (R73). -/
theorem environmentTurn_next {i : Input} {s t : State} (h : environmentTurn i s = .next t) :
    (∃ q, i = .counter q ∧ t = counterUpdate q s)
      ∨ (∃ y, i = .context y ∧ y.wellFormed s.cfg = true ∧ t = changeContext y s)
      ∨ (∃ a v, i = .access a ∧ t = emit (.verdict a v) s)
      ∨ (∃ n, i = .drain n ∧ t = drain n s)
      ∨ (∃ e, i = .reset e ∧ e.ctx.wellFormed s.cfg = true ∧ t = resetInto e s) := by
  cases i with
  | counter q => cases h; exact .inl ⟨q, rfl, rfl⟩
  | context y =>
    simp only [environmentTurn, contextTurn] at h
    split at h <;> cases h
    exact .inr (.inl ⟨y, rfl, ‹_›, rfl⟩)
  | access a =>
    simp only [environmentTurn] at h
    rcases accessTurn_cases a s with ⟨-, e⟩ | ⟨-, ⟨f, -, e⟩ | ⟨v, -, -, e⟩⟩ <;> rw [e] at h <;> cases h
    exact .inr (.inr (.inl ⟨a, v, rfl, rfl⟩))
  | drain n => cases h; exact .inr (.inr (.inr (.inl ⟨n, rfl, rfl⟩)))
  | reset e =>
    simp only [environmentTurn, resetTurn] at h
    split at h <;> cases h
    exact .inr (.inr (.inr (.inr ⟨e, rfl, ‹_›, rfl⟩)))

/-- A turn of the environment faults only by a field trap (R183). -/
theorem environmentTurn_fault {i : Input} {s : State} {r : Fault} (h : environmentTurn i s = .fault r) :
    ∃ a f, i = .access a ∧ trapVerdict s.cfg s.ctx s.cnthctl a = .toEL2 f
      ∧ r = .fieldTrap .el2 a (Config.trapEC a) f (endOfRun s) := by
  cases i with
  | counter q => cases h
  | context y =>
    simp only [environmentTurn, contextTurn] at h
    split at h <;> cases h
  | access a =>
    simp only [environmentTurn] at h
    rcases accessTurn_cases a s with ⟨-, e⟩ | ⟨-, ⟨f, hv, e⟩ | ⟨v, -, -, e⟩⟩ <;> rw [e] at h <;> cases h
    exact ⟨a, f, rfl, hv, rfl⟩
  | drain n => cases h
  | reset e =>
    simp only [environmentTurn, resetTurn] at h
    split at h <;> cases h

/-- The state in which a turn is taken: the turn has left the agenda. -/
def takeTurn (s : State) : State := { s with agenda := s.agenda.tail }

/-- A fetch does not depend on the turns to come (R61, R71). -/
@[simp] theorem fetch_takeTurn (s : State) : fetch (takeTurn s) = fetch s := rfl

/-- A step is one turn, of the PE or of another agent (R73, D27). -/
theorem step_cases (s : State) :
    ((s.agenda = [] ∨ ∃ rest, s.agenda = .pe :: rest) ∧ step s = peTurn (takeTurn s))
      ∨ ∃ i rest, s.agenda = .env i :: rest ∧ step s = environmentTurn i (takeTurn s) := by
  obtain ⟨cfg, cnthctl, pH, pK, cntkctl, x, pc, ctx, cPrev, base, program, agenda, outputs, fi⟩ := s
  match agenda with
  | [] => exact .inl ⟨.inl rfl, rfl⟩
  | .pe :: rest => exact .inl ⟨.inr ⟨rest, rfl⟩, rfl⟩
  | .env i :: rest => exact .inr ⟨i, rest, rfl, rfl⟩

/-- Where the PE moves, the step is its turn (R73; log entry 7). -/
theorem step_of_peMoves {s : State} (h : PeMoves s) : step s = peTurn (takeTurn s) := by
  obtain h | ⟨rest, h⟩ := h <;> rcases step_cases s with ⟨-, e⟩ | ⟨i, l, he, -⟩
  · exact e
  · rw [h] at he; cases he
  · exact e
  · rw [h] at he; cases he

end Sys2Proof.Machine
end

