-- ==== Sys2Proof/Tests/Slice0.lean ====
section
/-! SUPPORT. Tests: words, vectors and programs of spec/95_test_vectors.md, the smoke tests of well-formedness, and for
every obligation with hypotheses a witness that meets them all. Expected results are the vectors' own. -/

namespace Sys2Proof.Tests

open Sys2Proof Sys2Proof.Machine

/-! ## Helpers -/

/-- The configuration of 95 §4: EL2, EL3, E2H, ECV, NV present, no mask bits, default mask 0x3FFFF. -/
def cfg : Cfg where
  haveEL2 := true
  haveEL3 := true
  haveE2H := true
  haveECV := true
  haveMaskBits := false
  haveNV2 := true
  haveAArch32EL0 := true
  haveAArch32EL1 := true
  extraStored := 0#64
  resetValue := 0xFFFFFFFFFFFFFFFF#64

/-- The configuration of 95 §8 P4: EL3 without EL2, default mask 0. -/
def cfgNoEl2 : Cfg := { cfg with haveEL2 := false }

/-- The configuration with the mask bits (95 §7). -/
def cfgMask : Cfg := { cfg with haveMaskBits := true }

/-- A context at a level, with HCR_EL2.E2H and TGE; EL2 enabled, SCR_EL3.NS 1. -/
def ctx (el : EL) (e2h tge : Bool) : Ctx where
  el := el
  hcrE2H := e2h
  hcrTGE := tge
  hcrNV := false
  hcrNV1 := false
  hcrNV2 := false
  scrNS := true
  scrEEL2 := false
  el2Enabled := true
  security := .nonSecure
  kTraps := []
  imaskP := false
  imaskV := false

/-- The context `ctx` with HCR_EL2.{NV, NV1, NV2} (95 §5, contexts E, E1, E2). -/
def ctxNv (el : EL) (e2h tge nv nv1 nv2 : Bool) : Ctx :=
  { ctx el e2h tge with hcrNV := nv, hcrNV1 := nv1, hcrNV2 := nv2 }

/-- A context with EL2 not enabled (95 §5, context F). -/
def ctxOff (el : EL) : Ctx := { ctx el false false with el2Enabled := false }

/-- X[0] and X[1] of 95 §4, the rest 0. -/
def regs : Vector Word 31 :=
  ((Vector.replicate 31 0#64).set 0 0x1111111111111111#64).set 1 0xFFFFFFFFFFFFFFFF#64

/-- The start state of 95 §4. -/
def start (x : Ctx) : State where
  cfg := cfg
  cnthctl := 0xC57#64
  pendHctl := []
  pendKctl := []
  cntkctl := 0x333#64
  x := regs
  pc := 0x8000#64
  ctx := x
  cPrev := none
  progBase := 0x8000#64
  program := []
  agenda := []
  outputs := []
  freeIndex := 0

/-- The outcome is a next state of which `p` holds. -/
def nextIs (o : Result) (p : State → Bool) : Bool :=
  match o with
  | .next t => p t
  | .fault _ => false
  | .refused _ => false

/-- The outcome is a fault of which `p` holds. -/
def faultIs (o : Result) (p : Fault → Bool) : Bool :=
  match o with
  | .next _ => false
  | .fault r => p r
  | .refused _ => false

/-- The outcome is the refusal `r`. -/
def refusedIs (o : Result) (r : Refusal) : Bool :=
  match o with
  | .next _ => false
  | .fault _ => false
  | .refused q => decide (q = r)

/-- Undefined() at pc 0x8000, with the state unchanged (95 §4). -/
def undefinedAt (s : State) (o : Result) : Bool :=
  faultIs o fun r => decide (r = .undefined 0x8000#64 s)

/-! ## Decoding: words written bit by bit, bit 31 first, from 95 §3 -/

theorem test_decode_mrs_cnthctl_5 :
    decode 0b1101_0101_0011_1100_1110_0001_0000_0101#32 = .instr (.mrsCnthctlEl2 5#5) := by decide

theorem test_decode_mrs_cnthctl_xzr :
    decode 0b1101_0101_0011_1100_1110_0001_0001_1111#32 = .instr (.mrsCnthctlEl2 31#5) := by decide

theorem test_decode_msr_cnthctl_9 :
    decode 0b1101_0101_0001_1100_1110_0001_0000_1001#32 = .instr (.msrCnthctlEl2 9#5) := by decide

theorem test_decode_mrs_cntkctl_17 :
    decode 0b1101_0101_0011_1000_1110_0001_0001_0001#32 = .instr (.mrsCntkctlEl1 17#5) := by decide

theorem test_decode_msr_cntkctl_30 :
    decode 0b1101_0101_0001_1000_1110_0001_0001_1110#32 = .instr (.msrCntkctlEl1 30#5) := by decide

theorem test_decode_sync :
    decode 0b1101_0101_0000_0011_0011_1111_1101_1111#32 = .instr .sync := by decide

theorem test_decode_refuses_neighbours :
    ([0xD53CE120#32, 0xD53CE200#32, 0xD53CE000#32, 0xD53DE100#32, 0xD52CE100#32, 0xD53BE020#32,
      0xD503201F#32, 0x91000000#32, 0x00000000#32].all fun w => decode w == .notInScope w) = true := by decide

theorem test_encode_is_pattern_or_operand :
    encode (.mrsCnthctlEl2 5#5) = 0xD53CE105#32 ∧ encode (.msrCnthctlEl2 9#5) = 0xD51CE109#32
      ∧ encode (.mrsCntkctlEl1 17#5) = 0xD538E111#32 ∧ encode (.msrCntkctlEl1 30#5) = 0xD518E11E#32
      ∧ encode .sync = 0xD5033FDF#32 := by decide

theorem test_decodeTableWord :
    decodeTableWord 32 0xD518E101 = some (.msrCntkctlEl1 1#5) ∧ decodeTableWord 32 0xD53CE120 = none := by decide

theorem test_spellings :
    sysregOfSpelling "CNTHCTL_EL2" = some .cnthctlEl2 ∧ sysregOfSpelling "S3_0_C14_C1_0" = some .cntkctlEl1
      ∧ sysregOfSpelling "CNTP_CTL_EL0" = none := by simp [sysregOfSpelling, sysregSpellings]

/-! ## Well-formedness: one ill-formed term for each check, and well-formed ones -/

theorem test_wellFormed_context :
    (ctx .el1 true false).wellFormed cfg = true ∧ (ctxOff .el3).wellFormed cfgNoEl2 = true
      ∧ { ctx .el1 false false with kTraps := [⟨.cntpct, .el0, .a64⟩] }.wellFormed cfg = true := by decide

theorem test_wellFormed_refuses_level_not_implemented :
    (ctxOff .el2).levelOk cfgNoEl2 = false
      ∧ (ctx .el3 false false).levelOk { cfg with haveEL3 := false } = false := by decide

theorem test_wellFormed_refuses_el2_enabled_without_el2 :
    (ctx .el1 false false).el2EnabledOk cfgNoEl2 = false := by decide

theorem test_wellFormed_refuses_el2_enabled_in_secure_without_eel2 :
    { ctx .el1 false false with scrNS := false }.el2EnabledOk cfg = false := by decide

theorem test_wellFormed_refuses_kTrap_with_e2h_and_tge :
    { ctx .el0 true true with kTraps := [⟨.cntpct, .el0, .a64⟩] }.kTrapsOk cfg = false := by decide

theorem test_wellFormed_refuses_kTrap_on_el02 :
    { ctx .el1 false false with kTraps := [⟨.cntpCtlEl02, .el1, .a64⟩] }.kTrapsOk cfg = false := by decide

theorem test_wellFormed_refuses_el02_access_outside_a64_el1 :
    Acc.el02Ok ⟨.cntvCtlEl02, .el0, .a64⟩ = false ∧ Acc.el02Ok ⟨.cntvCtlEl02, .el1, .a32⟩ = false := by decide

theorem test_wellFormed_refuses_a32_access_where_absent :
    Acc.stateOk { cfg with haveAArch32EL0 := false } ⟨.cntpct, .el0, .a32⟩ = false
      ∧ Acc.stateOk { cfg with haveAArch32EL1 := false } ⟨.cntpct, .el1, .a32⟩ = false := by decide

theorem test_wellFormed_refuses_access_at_other_level :
    Acc.levelOk (ctx .el1 false false) ⟨.cntpct, .el0, .a64⟩ = false
      ∧ Acc.levelOk (ctx .el2 false false) ⟨.cntpct, .el1, .a64⟩ = false := by decide

theorem test_turn_refuses_ill_formed :
    refusedIs (step { start (ctx .el2 false false) with
        agenda := [.env (.context { ctx .el1 false false with scrNS := false })] })
      (.illFormedContext { ctx .el1 false false with scrNS := false }) = true
      ∧ refusedIs (step { start (ctx .el2 false false) with agenda := [.env (.access ⟨.cntpct, .el1, .a64⟩)] })
        (.illFormedAccess ⟨.cntpct, .el1, .a64⟩) = true := by decide

/-! ## Fields and layouts (95 §2) -/

theorem test_fields_of_A5A5A :
    (figure .one).map (fieldValue · 0xA5A5A#64) = [1, 0, 1, 0, 0, 1, 0, 1, 1, 0, 1, 0, 5, 1, 0, 1, 0]
      ∧ (figure .two).map (fieldValue · 0xA5A5A#64) = [1, 0, 1, 0, 0, 1, 0, 1, 5, 1, 0, 1, 0] := by decide

theorem test_fields_of_5A5A5 :
    (figure .one).map (fieldValue · 0x5A5A5#64) = [0, 1, 0, 1, 1, 0, 1, 0, 0, 1, 0, 1, 10, 0, 1, 0, 1]
      ∧ (figure .two).map (fieldValue · 0x5A5A5#64) = [0, 1, 0, 1, 1, 0, 1, 0, 10, 0, 1, 0, 1] := by decide

theorem test_fieldMask :
    fieldMask { cfg with haveE2H := false, haveECV := false } = 0xFF#64
      ∧ fieldMask { cfg with haveECV := false } = 0xFFF#64
      ∧ fieldMask { cfg with haveE2H := false } = 0x3F0FF#64 ∧ fieldMask cfg = 0x3FFFF#64
      ∧ fieldMask cfgMask = 0xFFFFF#64
      ∧ fieldMask { cfgMask with haveE2H := false, haveECV := false } = 0xC00FF#64 := by decide

theorem test_layout_needs_el2_and_e2h :
    layoutInForce cfg (ctx .el1 true false) = .one ∧ layoutInForce cfg (ctx .el1 false false) = .two
      ∧ layoutInForce { cfg with haveE2H := false } (ctx .el1 true false) = .two
      ∧ layoutInForce cfgNoEl2 (ctx .el1 true false) = .two := by decide

theorem test_aarch32_view : aarch32View 0x123456789ABCDEF0#64 = 0x9ABCDEF0#32 := by decide

/-! ## The accessors and SYNC (95 §4, rows named in each test) -/

/-- Rows 6 and 8. -/
theorem test_mrs_cnthctl_completes :
    nextIs (exec (.mrsCnthctlEl2 0#5) (start (ctx .el2 true false)))
        (fun t => readX 0#5 t == 0xC57#64 && t.pc == 0x8004#64) = true
      ∧ nextIs (exec (.mrsCnthctlEl2 31#5) (start (ctx .el2 true false)))
        (fun t => decide (t.x = regs) && t.pc == 0x8004#64) = true := by decide

/-- Rows 1, 3 and 4. -/
theorem test_mrs_cnthctl_undefined :
    undefinedAt (start (ctx .el0 false false)) (exec (.mrsCnthctlEl2 0#5) (start (ctx .el0 false false))) = true
      ∧ undefinedAt (start (ctx .el1 false false)) (exec (.mrsCnthctlEl2 0#5) (start (ctx .el1 false false))) = true
      ∧ undefinedAt (start { ctxOff .el1 with hcrNV := true })
        (exec (.mrsCnthctlEl2 0#5) (start { ctxOff .el1 with hcrNV := true })) = true := by decide

/-- Rows 10 and 16: the read-back value and what a drain commits. -/
theorem test_msr_cnthctl_completes :
    nextIs (exec (.msrCnthctlEl2 1#5) (start (ctx .el2 false false)))
        (fun t => readHctl .hctl t == 0x3FFFF#64 && t.cnthctl == 0xC57#64 && t.pc == 0x8004#64) = true
      ∧ nextIs (exec (.msrCnthctlEl2 0#5) (start (ctx .el3 false false)))
        (fun t => (drain .hctl t).cnthctl == 0x11111#64) = true := by decide

/-- Row 12. -/
theorem test_msr_cnthctl_traps :
    faultIs (exec (.msrCnthctlEl2 1#5) (start (ctxNv .el1 false false true false false))) (fun r => decide
      (r = .systemAccessTrap .el2 0x18#6 ⟨⟨3#2, 4#3, 14#4, 1#4, 0#3⟩, 1#5, false⟩ 0x8000#64
        (start (ctxNv .el1 false false true false false)))) = true := by decide

/-- Rows 18 and 20. -/
theorem test_mrs_cntkctl_completes :
    nextIs (exec (.mrsCntkctlEl1 0#5) (start (ctxNv .el1 false false true false false)))
        (fun t => readX 0#5 t == 0x333#64) = true
      ∧ nextIs (exec (.mrsCntkctlEl1 0#5) (start (ctx .el2 true false)))
        (fun t => readX 0#5 t == 0xC57#64) = true := by decide

/-- Rows 21 and 27. -/
theorem test_mrs_cntkctl_not_redirected :
    nextIs (exec (.mrsCntkctlEl1 0#5) (start (ctx .el3 true false))) (fun t => readX 0#5 t == 0x333#64) = true
      ∧ nextIs (exec (.mrsCntkctlEl1 0#5)
          { start (ctx .el2 true false) with cfg := { cfg with haveE2H := false } })
        (fun t => readX 0#5 t == 0x333#64) = true := by decide

/-- Rows 24 and 26. -/
theorem test_msr_cntkctl_writes_cell :
    nextIs (exec (.msrCntkctlEl1 1#5) (start (ctx .el2 false false)))
        (fun t => t.cntkctl == 0xFFFFFFFFFFFFFFFF#64 && t.cnthctl == 0xC57#64 && t.pendKctl.isEmpty) = true
      ∧ nextIs (exec (.msrCntkctlEl1 1#5) (start (ctx .el3 true false)))
        (fun t => t.cntkctl == 0xFFFFFFFFFFFFFFFF#64 && t.pendKctl.isEmpty) = true := by decide

/-- Rows 25 and 22. -/
theorem test_msr_cntkctl_redirected :
    nextIs (exec (.msrCntkctlEl1 1#5) (start (ctx .el2 true false)))
        (fun t => (drain .kctl t).cnthctl == 0x3FFFF#64 && t.cntkctl == 0x333#64) = true
      ∧ undefinedAt (start (ctx .el0 true false))
        (exec (.msrCntkctlEl1 1#5) (start (ctx .el0 true false))) = true := by decide

/-- 95 §8 P2, the SYNC at 0x2008. -/
theorem test_sync_drains :
    nextIs (exec .sync { start (ctx .el2 true false) with cnthctl := 0#64, pendKctl := [0xC03#64] })
      (fun t => t.cnthctl == 0xC03#64 && t.pendKctl.isEmpty && t.pc == 0x8004#64) = true := by decide

/-- Two writes through one mnemonic: the later lasts (R67). -/
theorem test_sync_keeps_order :
    nextIs (exec .sync { start (ctx .el0 true false) with pendHctl := [0x3#64, 0x57#64] })
      (fun t => t.cnthctl == 0x57#64 && t.pendHctl.isEmpty) = true := by decide

/-- The masking table of 95 §4. -/
theorem test_stored_mask :
    storedValue { cfg with haveE2H := false, haveECV := false } 0xFFFFFFFFFFFFFFFF#64 = 0xFF#64
      ∧ storedValue cfgMask 0xFFFFFFFFFFFFFFFF#64 = 0xFFFFF#64
      ∧ storedValue { cfgMask with extraStored := 0xFFFFFFFFFFFFFFFF#64 } 0xFFFFFFFFFFFFFFFF#64
          = 0xFFFFFFFFFFFFFFFF#64
      ∧ storedValue cfgNoEl2 0xFFFFFFFFFFFFFFFF#64 = 0#64 := by decide

/-! ## Trap verdicts (95 §5, the context's letter in each test) -/

theorem test_verdict_A :
    trapVerdict cfg (ctx .el1 true false) 0#64 ⟨.cntpCtl, .el1, .a64⟩ = .toEL2 .el1pten
      ∧ trapVerdict cfg (ctx .el1 true false) 0x800#64 ⟨.cntpct, .el1, .a64⟩ = .toEL2 .l1El1pcten
      ∧ trapVerdict cfg (ctx .el0 true false) 0x400#64 ⟨.cntpct, .el0, .a32⟩ = .notByThisRegister
      ∧ trapVerdict cfg (ctx .el0 true false) 0#64 ⟨.cntvct, .el0, .a64⟩ = .notByThisRegister := by decide

theorem test_verdict_B :
    trapVerdict cfg (ctx .el0 true true) 0x100#64 ⟨.cntpTval, .el0, .a32⟩ = .toEL2 .el0pten
      ∧ trapVerdict cfg (ctx .el0 true true) 0x200#64 ⟨.cntvCtl, .el0, .a64⟩ = .toEL2 .el0vten
      ∧ trapVerdict cfg (ctx .el0 true true) 0x300#64 ⟨.cntfrq, .el0, .a64⟩ = .toEL2 .el0vcten
      ∧ trapVerdict cfg (ctx .el0 true true) 0x301#64 ⟨.cntfrq, .el0, .a64⟩ = .notByThisRegister
      ∧ trapVerdict cfg (ctx .el0 true true) 0x302#64 ⟨.cntpct, .el0, .a32⟩ = .toEL2 .el0pcten
      ∧ trapVerdict cfg (ctx .el0 true true) 0x6303#64 ⟨.cntvCtl, .el0, .a64⟩ = .notByThisRegister := by decide

theorem test_verdict_C_D :
    trapVerdict cfg (ctx .el1 false false) 0x1#64 ⟨.cntpCval, .el1, .a64⟩ = .toEL2 .el1pcen
      ∧ trapVerdict cfg (ctx .el1 false false) 0x2#64 ⟨.cntpct, .el1, .a64⟩ = .toEL2 .l2El1pcten
      ∧ trapVerdict cfg (ctx .el1 false false) 0xC00#64 ⟨.cntpCtl, .el1, .a64⟩ = .toEL2 .el1pcen
      ∧ trapVerdict cfg { ctx .el1 false false with kTraps := [⟨.cntvTval, .el1, .a64⟩] } 0x2003#64
          ⟨.cntvTval, .el1, .a64⟩ = .byOther
      ∧ trapVerdict cfg (ctx .el1 false true) 0x2003#64 ⟨.cntvCtl, .el1, .a64⟩ = .toEL2 .el1tvt
      ∧ trapVerdict cfg (ctx .el0 false false) 0x4003#64 ⟨.cntvct, .el0, .a32⟩ = .toEL2 .el1tvct := by decide

theorem test_verdict_E_F :
    trapVerdict cfg (ctxNv .el1 false false true false true) 0x8003#64 ⟨.cntpCvalEl02, .el1, .a64⟩ = .toEL2 .el1nvpct
      ∧ trapVerdict cfg (ctxNv .el1 false false true false true) 0x8003#64 ⟨.cntvCtlEl02, .el1, .a64⟩
          = .notByThisRegister
      ∧ trapVerdict cfg (ctxNv .el1 true false true false true) 0x18F03#64 ⟨.cntvCtlEl02, .el1, .a64⟩
          = .toEL2 .el1nvvct
      ∧ trapVerdict cfg (ctxNv .el1 false false true true true) 0x8003#64 ⟨.cntpCtlEl02, .el1, .a64⟩
          = .notByThisRegister
      ∧ trapVerdict cfg (ctxOff .el0) 0x6000#64 ⟨.cntvct, .el0, .a64⟩ = .notByThisRegister := by decide

/-- 95 §8 P5, step 3: the access is stopped, through L2.EL1PCTEN. -/
theorem test_access_trapped :
    faultIs (step { start (ctx .el1 false false) with
        cnthctl := 0x6002#64, agenda := [.env (.access ⟨.cntpct, .el1, .a64⟩)] })
      (fun r => match r with
        | .fieldTrap g a _ f _ => g == .el2 && a == ⟨.cntpct, .el1, .a64⟩ && f == .l2El1pcten
        | .undefined _ _ => false
        | .systemAccessTrap _ _ _ _ _ => false) = true := by decide

/-- 95 §8 P5, step 2: the change to EL1 synchronizes. -/
theorem test_change_of_level_synchronizes :
    nextIs (step { start (ctx .el2 false false) with
        cnthctl := 3#64, pendHctl := [0x6002#64], agenda := [.env (.context (ctx .el1 false false))] })
      (fun t => t.cnthctl == 0x6002#64 && t.pendHctl.isEmpty && t.ctx.el == .el1) = true := by decide

/-! ## Event stream, masks, ECV (95 §6, §7) -/

theorem test_events_of_bit_5 :
    eventAt cfg (ctx .el1 false false) 0x54#64 0x1F#64 0x20#64 = true
      ∧ eventAt cfg (ctx .el1 false false) 0x54#64 0x3F#64 0x40#64 = false
      ∧ eventAt cfg (ctx .el1 false false) 0x5C#64 0x3F#64 0x40#64 = true
      ∧ eventAt cfg (ctx .el1 false false) 0x50#64 0x1F#64 0x20#64 = false
      ∧ eventAt cfg (ctx .el1 false false) 0x54#64 0x1F#64 0x40#64 = false
      ∧ eventAt cfg (ctx .el1 false false) 0x5C#64 0xFFFFFFFFFFFFFFFF#64 0#64 = true
      ∧ eventAt cfg (ctxOff .el1) 0x54#64 0x1F#64 0x20#64 = false := by decide

theorem test_events_of_the_high_slice :
    trigIdx cfg 0x20054#64 = 13 ∧ trigIdx { cfg with haveECV := false } 0x20054#64 = 5
      ∧ eventAt cfg (ctx .el1 false false) 0x200F4#64 0x7FFFFF#64 0x800000#64 = true
      ∧ eventAt cfg (ctx .el1 false false) 0x200FC#64 0xFFFFFF#64 0x1000000#64 = true
      ∧ eventAt { cfg with haveECV := false } (ctx .el1 false false) 0x20054#64 0x1FFF#64 0x2000#64 = false := by
  decide

theorem test_masks :
    effImaskP { start { ctx .el1 false false with security := .other } with cfg := cfgMask, cnthctl := 0x80000#64 }
        = true
      ∧ effImaskV { start { ctx .el1 false false with security := .other } with
          cfg := cfgMask, cnthctl := 0x80000#64 } = false
      ∧ effImaskP { start (ctx .el1 false false) with cfg := cfgMask, cnthctl := 0xC0000#64 } = false
      ∧ effImaskV { start { ctx .el1 false false with security := .secure, imaskV := true } with
          cfg := cfgMask, cnthctl := 0xC0000#64 } = true
      ∧ effImaskP { start { ctx .el1 false false with security := .other } with cnthctl := 0xC0000#64 } = false := by
  decide

theorem test_ecv :
    ecvOn cfg (ctx .el1 false false) 0x1003#64 = true ∧ ecvOn cfg (ctx .el1 true true) 0x1003#64 = false
      ∧ ecvOn cfg { ctx .el1 false true with scrNS := false, scrEEL2 := true } 0x1003#64 = true
      ∧ ecvOn cfg (ctx .el1 false false) 0x3#64 = false
      ∧ ecvOn { cfg with haveECV := false } (ctx .el1 false false) 0x1003#64 = false := by decide

/-! ## Fetch, reset (95 §8 P1, §9) -/

/-- P1: the word at 0x1000, and the refusal at 0x1008. -/
theorem test_fetch_program :
    nextIs (step { start (ctx .el2 false false) with
        pc := 0x1000#64, progBase := 0x1000#64, program := [0xD51CE100#32, 0xD53CE101#32] })
        (fun t => t.pc == 0x1004#64 && decide (t.pendHctl = [0x11111#64])) = true
      ∧ refusedIs (step { start (ctx .el2 false false) with
        pc := 0x1008#64, progBase := 0x1000#64, program := [0xD51CE100#32, 0xD53CE101#32] })
        (.pcOutsideProgram 0x1008#64) = true := by decide

theorem test_withFetchWord_from_reset :
    nextIs (step (State.reset.withFetchWord 32 0xD5033FDF)) (fun t => t.pc == 4#64) = true
      ∧ nextIs (step (State.reset.withFetchWord 32 0xD518E101)) (fun t => t.cntkctl == 0#64) = true := by decide

theorem test_reset_value :
    (resetState cfg resetEnvDefault).cnthctl = 0x3FFFF#64
      ∧ (resetState { cfg with resetValue := 0#64 } resetEnvDefault).cnthctl = 0#64 := by decide

/-! ## Witnesses: for every obligation with hypotheses, concrete values that meet them all -/

/-- A state with `l` still to come. -/
def withAgenda (x : Ctx) (l : List Turn) : State := { start x with agenda := l }

/-- A program of one word at pc. -/
def withWord (x : Ctx) (w : InstrWord) : State := { start x with program := [w] }

/-- A well-formed access that comes next, at each of the two levels. -/
def accEl1 : Acc := ⟨.cntpct, .el1, .a64⟩
def accEl0 : Acc := ⟨.cntfrq, .el0, .a32⟩

theorem witness_DecodeOfEncode : Instr.wellFormed (.msrCntkctlEl1 31#5) = true := by decide

theorem witness_EncodeOfDecode : decode 0xD538E11F#32 = .instr (.mrsCntkctlEl1 31#5) := by decide

theorem witness_WordsOutOfScopeRefused :
    0xD53CE120#32 &&& 0xFFFFFFE0#32 ∉ [0xD53CE100#32, 0xD51CE100#32, 0xD538E100#32, 0xD518E100#32]
      ∧ 0xD53CE120#32 ≠ 0xD5033FDF#32 ∧ PeMoves (withWord (ctx .el2 false false) 0xD53CE120#32)
      ∧ PeMoves { withWord (ctx .el2 false false) 0xD53CE120#32 with agenda := [.pe, .pe] }
      ∧ WordAtPc (withWord (ctx .el2 false false) 0xD53CE120#32) 0xD53CE120#32 :=
  ⟨by decide, by decide, .inl rfl, .inr ⟨[.pe], rfl⟩, 0, by decide, by decide, rfl⟩

theorem witness_StepRunsDecodedInstruction :
    WordAtPc (withWord (ctx .el2 false false) 0xD5033FDF#32) 0xD5033FDF#32
      ∧ decode 0xD5033FDF#32 = .instr .sync ∧ Instr.sync.wellFormed = true
      ∧ (withWord (ctx .el2 false false) 0xD5033FDF#32).agenda = []
      ∧ WordAtPc { withWord (ctx .el2 false false) 0xD5033FDF#32 with agenda := [.pe] } 0xD5033FDF#32 :=
  ⟨⟨0, by decide, by decide, rfl⟩, by decide, by decide, rfl, 0, by decide, by decide, rfl⟩

/-- pc just below the program, one byte into it, and just past its end. -/
theorem witness_PcOutsideProgramRefused :
    let s := withWord (ctx .el2 false false) 0xD5033FDF#32
    PeMoves s ∧ PeMoves { s with agenda := [.pe] } ∧ 0x7FFC < s.progBase.toNat
      ∧ 0x8001 = s.progBase.toNat + 1 ∧ 1 % 4 ≠ 0 ∧ 0x8004 = s.progBase.toNat + 4 * 1 ∧ s.program.length ≤ 1 :=
  ⟨.inl rfl, .inr ⟨[], rfl⟩, by decide⟩

/-- One completing step for each of the statements about every step. -/
theorem witness_ConfigAndProgramFixed :
    nextIs (step (withAgenda (ctx .el2 false false) [.env (.counter 5#64)])) (fun _ => true) = true := by decide

theorem witness_RegisterChangesOnlyByWriteOrReset :
    nextIs (step { withAgenda (ctx .el2 false false) [.env (.drain .hctl)] with pendHctl := [1#64] })
      (fun t => t.cnthctl == 1#64) = true := by decide

/-- Each arm of the two accessors of CNTHCTL_EL2. -/
theorem witness_MrsCnthctlDeliversRegister :
    (start (ctx .el2 true false)).ctx.el = .el2 ∧ (start (ctx .el3 true false)).ctx.el = .el3
      ∧ (start (ctx .el0 true false)).ctx.el = .el0 ∧ (start (ctxOff .el1)).ctx.el2Enabled = false
      ∧ (ctxNv .el1 true true true false false).el2Enabled = true
      ∧ nv cfg (ctxNv .el1 true true true false false) = true ∧ nv cfg (ctx .el1 true true) = false := by decide

theorem witness_MsrCnthctlAppendsWrite :
    (start (ctx .el2 false true)).ctx.el = .el2 ∧ (start (ctx .el3 false false)).ctx.el = .el3
      ∧ (start (ctx .el0 true false)).ctx.el = .el0 ∧ (start (ctxOff .el1)).ctx.el = .el1
      ∧ (start (ctxOff .el1)).ctx.el2Enabled = false
      ∧ (ctxNv .el1 false true true false false).el2Enabled = true
      ∧ nv cfg (ctxNv .el1 false true true false false) = true := by decide

/-- Each arm of the two accessors of CNTKCTL_EL1. -/
theorem witness_MrsCntkctlDeliversCellOrRegister :
    (start (ctx .el1 true false)).ctx.el = .el1 ∧ (start (ctx .el3 true false)).ctx.el = .el3
      ∧ (start (ctx .el2 false false)).ctx.el = .el2 ∧ e2h cfg (ctx .el2 false false) = false
      ∧ (start (ctx .el2 true false)).ctx.el = .el2 ∧ e2h cfg (ctx .el2 true false) = true
      ∧ (start (ctx .el0 true false)).ctx.el = .el0 := by decide

theorem witness_MsrCntkctlWritesCellOrRegister :
    (start (ctx .el1 true true)).ctx.el = .el1 ∧ (start (ctx .el3 true true)).ctx.el = .el3
      ∧ (start (ctx .el2 false true)).ctx.el = .el2 ∧ e2h cfg (ctx .el2 false true) = false
      ∧ (start (ctx .el2 true true)).ctx.el = .el2 ∧ e2h cfg (ctx .el2 true true) = true
      ∧ (start (ctx .el0 true true)).ctx.el = .el0 := by decide

theorem witness_OperandThirtyOne :
    (start (ctx .el0 true false)).ctx.el = .el0 ∧ (start (ctx .el2 true false)).ctx.el = .el2
      ∧ (start (ctx .el3 true false)).ctx.el = .el3 ∧ (start (ctx .el1 true false)).ctx.el ≠ .el0
      ∧ (start (ctx .el1 true false)).ctx.el = .el1 := by decide

theorem witness_AccessorsTouchNothingElse :
    Instr.mrsCntkctlEl1 3#5 ≠ .sync
      ∧ nextIs (exec (.mrsCntkctlEl1 3#5) (start (ctx .el1 true false))) (fun _ => true) = true := by decide

theorem witness_WriteStoresMaskedValue :
    (start (ctx .el2 true false)).ctx.el = .el2 ∧ e2h cfg (ctx .el2 true false) = true
      ∧ (start (ctx .el2 true false)).pendHctl = [] ∧ (start (ctx .el2 true false)).pendKctl = []
      ∧ cfg.haveEL2 = true ∧ fieldPresent cfg .el1pten = true ∧ fieldPresent cfgMask .cntpmask = true := by decide

/-- A raise of each kind, and the arms that raise. -/
theorem witness_UndefinedExactlyWhereSpecified :
    undefinedAt (start (ctx .el1 false false)) (exec (.msrCnthctlEl2 0#5) (start (ctx .el1 false false))) = true
      ∧ undefinedAt (start (ctx .el0 true true)) (exec (.mrsCntkctlEl1 0#5) (start (ctx .el0 true true))) = true := by
  decide

theorem witness_SystemAccessTrapExactlyWhereSpecified :
    (start (ctxNv .el1 true true true false false)).ctx.el = .el1
      ∧ (start (ctxNv .el1 true true true false false)).ctx.el2Enabled = true
      ∧ nv cfg (ctxNv .el1 true true true false false) = true
      ∧ faultIs (exec (.mrsCnthctlEl2 7#5) (start (ctxNv .el1 true true true false false)))
        (fun r => match r with
          | .systemAccessTrap _ _ y _ _ => y.rt == 7#5 && y.read
          | .undefined _ _ => false
          | .fieldTrap _ _ _ _ _ => false) = true := by decide

theorem witness_FaultLeavesStateBefore :
    faultIs (step (withWord (ctx .el0 false false) 0xD53CE100#32)) (fun _ => true) = true := by decide

/-- At EL1 and at EL3 of an implementation without EL2. -/
theorem witness_ResZeroWithoutEl2 :
    let s := { start (ctxOff .el3) with cfg := cfgNoEl2, cnthctl := 0#64 }
    let t := { start (ctxOff .el1) with cfg := cfgNoEl2, cnthctl := 0#64 }
    s.Inv ∧ t.Inv ∧ s.cfg.haveEL2 = false ∧ s.ctx.el = .el3 ∧ t.ctx.el = .el1 ∧ s.cfg.extraStored = 0#64 :=
  ⟨⟨⟨by decide, by simp [start], by simp [start]⟩, by simp [start, State.PendingAtItsLevel], by decide⟩,
    ⟨⟨by decide, by simp [start], by simp [start]⟩, by simp [start, State.PendingAtItsLevel], by decide⟩,
    rfl, rfl, rfl, rfl⟩

theorem witness_SameMnemonicReadsOwnWrite :
    (start (ctx .el2 true false)).ctx.el = .el2 ∧ (start (ctx .el2 true false)).pendKctl = []
      ∧ e2h cfg (ctx .el2 true false) = true ∧ (start (ctx .el2 true false)).pendHctl = [] := by decide

theorem witness_HctlReadAfterKctlWriteIsOldOrNew :
    (start (ctx .el2 true false)).ctx.el = .el2 ∧ e2h cfg (ctx .el2 true false) = true
      ∧ (start (ctx .el2 true false)).pendHctl = [] ∧ (start (ctx .el2 true false)).pendKctl = [] := by decide

theorem witness_KctlReadAfterHctlWriteIsOldOrNew :
    (start (ctx .el2 true true)).ctx.el = .el2 ∧ e2h cfg (ctx .el2 true true) = true
      ∧ (start (ctx .el2 true true)).pendHctl = [] ∧ (start (ctx .el2 true true)).pendKctl = [] := by decide

theorem witness_EitherPendingWriteMayLast :
    let s := { start (ctx .el2 true false) with pendHctl := [3#64], pendKctl := [0xC00#64] }
    s.pendHctl = [3#64] ∧ s.pendKctl = [0xC00#64] := by decide

/-- Each list with something to drain, and with nothing. -/
theorem witness_DrainCommitsOldest :
    let s := { withAgenda (ctx .el2 true false) [.env (.drain .hctl)] with pendHctl := [3#64, 4#64] }
    let t := { withAgenda (ctx .el2 true false) [.env (.drain .kctl)] with pendKctl := [3#64] }
    s.agenda = .env (.drain .hctl) :: [] ∧ s.pendHctl = 3#64 :: [4#64] ∧ t.agenda = .env (.drain .kctl) :: []
      ∧ t.pendKctl = 3#64 :: [] ∧ s.pendKctl = [] ∧ t.pendHctl = [] := by decide

/-- A change of level, a change of layout at one level, and an ill-formed context. -/
theorem witness_ChangeOfLevelSynchronizes :
    (withAgenda (ctx .el2 true false) [.env (.context (ctx .el1 true false))]).agenda
        = .env (.context (ctx .el1 true false)) :: []
      ∧ (ctx .el1 true false).wellFormed cfg = true ∧ (ctx .el1 true false).el ≠ (ctx .el2 true false).el
      ∧ (ctx .el2 false false).wellFormed cfg = true ∧ (ctx .el2 false false).el = (ctx .el2 true false).el
      ∧ { ctx .el1 true false with scrNS := false }.wellFormed cfg = false := by decide

theorem witness_StepKeepsInvariant :
    ({ withWord (ctx .el2 true false) 0xD518E101#32 with pendHctl := [3#64] }).Inv
      ∧ nextIs (step { withWord (ctx .el2 true false) 0xD518E101#32 with pendHctl := [3#64] })
        (fun t => decide (t.pendHctl = [3#64]) && decide (t.pendKctl = [0x3FFFF#64])) = true :=
  ⟨⟨⟨by decide, fun v hv => by cases List.mem_singleton.1 hv; decide, by simp [withWord, start]⟩,
    ⟨fun _ => .inl rfl, fun _ => rfl⟩, by decide⟩, by decide⟩

theorem witness_ResetEstablishesInvariant : (ctx .el2 false false).wellFormed cfg = true := by decide

theorem witness_LowerLevelsNeitherChangeNorSeeRegister :
    (start (ctx .el1 true false)).ctx.el = .el1 ∧ (start (ctx .el1 true false)).pendHctl = []
      ∧ (start (ctx .el1 true false)).pendKctl = []
      ∧ nextIs (exec (.msrCntkctlEl1 0#5) (start (ctx .el1 true false))) (fun _ => true) = true := by decide

theorem witness_LayoutTwoIgnoresBits11To8 :
    layoutInForce cfg (ctx .el1 false false) = .two
      ∧ 0xF03#64 &&& 0xFFFFFFFFFFFFF0FF#64 = 0x003#64 &&& 0xFFFFFFFFFFFFF0FF#64 := by decide

/-- The next turn is a well-formed access: at EL1 and at EL0, in each layout. -/
theorem witness_LayoutOneEl1ControlsTrap :
    AccessNext accEl1 (withAgenda (ctx .el1 true false) [.env (.access accEl1)]) := by decide

theorem witness_LayoutOneEl0ControlsTrap :
    AccessNext accEl0 { withAgenda (ctx .el0 true true) [.env (.access accEl0)] with cnthctl := 0#64 }
      ∧ AccessNext ⟨.cntpct, .el0, .a64⟩ (withAgenda (ctx .el0 true true) [.env (.access ⟨.cntpct, .el0, .a64⟩)])
      ∧ fieldTraps .el0pcten cfg (ctx .el0 true true) 0#64 accEl0 = true := by decide

theorem witness_LayoutTwoControlsTrap :
    AccessNext accEl1 (withAgenda (ctx .el1 false true) [.env (.access accEl1)])
      ∧ AccessNext accEl1 { withAgenda (ctxOff .el1) [.env (.access accEl1)] with cfg := cfgNoEl2 }
      ∧ ({ withAgenda (ctxOff .el1) [.env (.access accEl1)] with cfg := cfgNoEl2 }).ContextOk
      ∧ cfgNoEl2.haveEL3 = true ∧ cfgNoEl2.haveEL2 = false := by decide

theorem witness_CommonControlsTrap :
    AccessNext ⟨.cntpCtlEl02, .el1, .a64⟩
        (withAgenda (ctxNv .el1 false false true false true) [.env (.access ⟨.cntpCtlEl02, .el1, .a64⟩)])
      ∧ AccessNext accEl1 { withAgenda (ctxOff .el1) [.env (.access accEl1)] with cfg := cfgNoEl2 }
      ∧ ({ withAgenda (ctxOff .el1) [.env (.access accEl1)] with cfg := cfgNoEl2 }).ContextOk
      ∧ cfgNoEl2.haveEL3 = true ∧ cfgNoEl2.haveEL2 = false := by decide

theorem witness_AccessTrappedIffSomeFieldTraps :
    AccessNext accEl1 { withAgenda (ctx .el1 false false) [.env (.access accEl1)] with cnthctl := 0#64 }
      ∧ faultIs (step { withAgenda (ctx .el1 false false) [.env (.access accEl1)] with cnthctl := 0#64 })
        (fun _ => true) = true := by decide

/-- With EL2 not enabled no field traps (R120), with and without KTrap. -/
theorem witness_AccessNotStoppedOutputsVerdict :
    AccessNext accEl1 (withAgenda (ctxOff .el1) [.env (.access accEl1)])
      ∧ AccessNext accEl1 (withAgenda { ctxOff .el1 with kTraps := [accEl1] } [.env (.access accEl1)])
      ∧ ∀ f a, fieldTraps f cfg (ctxOff .el1) 0xC57#64 a = false :=
  ⟨by decide, by decide, fun f a => by cases f <;> rfl⟩

theorem witness_KernelControlTrapWins :
    { ctx .el1 false false with kTraps := [accEl1] }.wellFormed cfg = true
      ∧ accEl1 ∈ { ctx .el1 false false with kTraps := [accEl1] }.kTraps := by decide

/-- The one overlap: an EL0 access to CNTFRQ with both bits zero. -/
theorem witness_AtMostOneControlApplies :
    fieldTraps .el0vcten cfg (ctx .el0 true true) 0#64 accEl0 = true
      ∧ fieldTraps .el0pcten cfg (ctx .el0 true true) 0#64 accEl0 = true ∧ accEl0.reg = .cntfrq := by decide

theorem witness_FrequencyRegisterTrappedExactly : accEl0.reg = .cntfrq := by decide

theorem witness_NoEffectUnlessEl2Enabled :
    (ctxOff .el1).el2Enabled = false ∧ (ctxOff .el3).wellFormed cfgNoEl2 = true ∧ cfgNoEl2.haveEL2 = false := by
  decide

theorem witness_EcvBitTrapsNothing : { cfg with haveECV := false }.haveECV = false := by decide

theorem witness_CounterUpdateEmitsSelectedTransition :
    let s := { withAgenda (ctx .el2 false false) [.env (.counter 0x20#64)] with cPrev := some 0x1F#64, cnthctl := 0x54#64 }
    s.agenda = .env (.counter 0x20#64) :: [] ∧ s.cPrev = some 0x1F#64
      ∧ nextIs (step s) (fun t => decide (t.outputs = [.event])) = true := by decide

theorem witness_FirstCounterValueEmitsNothing :
    (withAgenda (ctx .el2 false false) [.env (.counter 0x20#64)]).agenda = .env (.counter 0x20#64) :: []
      ∧ (withAgenda (ctx .el2 false false) [.env (.counter 0x20#64)]).cPrev = none := by decide

/-- Trigger index 0, period 2, from the counter's last value. -/
theorem witness_OneEventPerPeriod :
    let s := { withAgenda (ctx .el2 false false) [.env (.counter 0#64), .env (.counter 1#64)] with
      cPrev := some 0xFFFFFFFFFFFFFFFF#64, cnthctl := 4#64 }
    s.cPrev = some 0xFFFFFFFFFFFFFFFF#64 ∧ streamOn s.ctx s.cnthctl = true ∧ trigIdx s.cfg s.cnthctl = 0
      ∧ s.agenda = (List.range 2).map
        (fun j => .env (.counter (0xFFFFFFFFFFFFFFFF#64 + BitVec.ofNat 64 (j + 1)))) := by decide

theorem witness_OnlyCounterUpdatesEmitEvents :
    nextIs (step { withAgenda (ctx .el2 false false) [.env (.counter 0x40#64)] with
      cPrev := some 0x3F#64, cnthctl := 0x5C#64 }) (fun t => t.outputs.count .event != 0) = true := by decide

theorem witness_SecurityStateRemovesEffectNotStorage :
    (ctx .el2 false false).security ≠ .other ∧ { ctx .el2 false false with security := .secure }.security ≠ .other
      ∧ Instr.msrCnthctlEl2 0#5 ≠ .sync
      ∧ nextIs (exec (.msrCnthctlEl2 0#5) (start (ctx .el2 false false))) (fun _ => true) = true := by decide

/-- A reset with a counter update behind it, with the PE's turn behind it, and one whose context is ill-formed. -/
theorem witness_ResetGivesResetValues :
    let e : ResetEnv := ⟨regs, 7#64, 0x1000#64, ctx .el2 false false⟩
    let d : ResetEnv := { e with ctx := { ctx .el1 false false with scrNS := false } }
    (withAgenda (ctx .el1 false false) [.env (.reset e), .env (.counter 9#64)]).agenda
        = .env (.reset e) :: .env (.counter 9#64) :: []
      ∧ (withAgenda (ctx .el1 false false) [.env (.reset e), .pe]).agenda = .env (.reset e) :: [.pe]
      ∧ e.ctx.wellFormed cfg = true ∧ d.ctx.wellFormed cfg = false := by decide

theorem witness_FirstReadAfterReset :
    (⟨regs, 7#64, 0x1000#64, ctx .el2 false false⟩ : ResetEnv).ctx.el = .el2
      ∧ resetEnvDefault.ctx.el = .el3 := by decide

end Sys2Proof.Tests
end

namespace Sys2Proof.Proofs.Parameters

open Sys2Proof.Machine

/-! The parameters of a run: no instruction, no turn and no step writes them. -/

/-- The parameters of a run, Cfg and the program with its base, are the same in `t` as in `s` (R5, R61, R71). -/
abbrev SameParameters (s t : State) : Prop :=
  t.cfg = s.cfg ∧ t.program = s.program ∧ t.progBase = s.progBase

/-! A reset of the machine keeps the configuration and is no load of a program (R210, log entry 10). -/

@[simp] theorem resetInto_cfg (e : ResetEnv) (s : State) : (resetInto e s).cfg = s.cfg := rfl
@[simp] theorem resetInto_program (e : ResetEnv) (s : State) : (resetInto e s).program = s.program := rfl
@[simp] theorem resetInto_progBase (e : ResetEnv) (s : State) : (resetInto e s).progBase = s.progBase := rfl

/-- Taking a turn off the agenda touches no parameter. -/
theorem sameParameters_takeTurn {s t : State} : SameParameters (takeTurn s) t ↔ SameParameters s t := Iff.rfl

theorem exec_sameParameters {i : Instr} {s t : State} (h : exec i s = .next t) : SameParameters s t := by
  rcases exec_next_cases h with ⟨_, -, -, rfl⟩ | ⟨_, -, -, rfl⟩ | ⟨_, -, -, -, rfl⟩ | ⟨_, -, -, rfl⟩
    | ⟨_, -, -, -, rfl⟩ | ⟨_, -, -, rfl⟩ | ⟨-, rfl⟩
  all_goals simp [SameParameters]

theorem peTurn_sameParameters {s t : State} (h : peTurn s = .next t) : SameParameters s t := by
  obtain ⟨_, _, -, -, hexec⟩ := peTurn_next h
  exact exec_sameParameters hexec

theorem environmentTurn_sameParameters {i : Input} {s t : State} (h : environmentTurn i s = .next t) :
    SameParameters s t := by
  rcases environmentTurn_next h with ⟨_, -, rfl⟩ | ⟨_, -, -, rfl⟩ | ⟨_, _, -, rfl⟩ | ⟨_, -, rfl⟩ | ⟨_, -, -, rfl⟩
  all_goals simp [SameParameters]

/-- Settles O8: a step is a turn of the PE or of another agent, and neither changes a parameter of the run. -/
theorem configAndProgramFixed : Obligations.ConfigAndProgramFixed := by
  intro s t h
  apply sameParameters_takeTurn.mp
  rcases step_cases s with ⟨-, hstep⟩ | ⟨i, _, -, hstep⟩ <;> rw [hstep] at h
  · exact peTurn_sameParameters h
  · exact environmentTurn_sameParameters h

end Sys2Proof.Proofs.Parameters

namespace Sys2Proof.Proofs.Turns

open Sys2Proof.Machine

/-! Whose turn a step takes, and what the PE's turn answers where the fetch finds no word. -/

/-- Where another agent than the PE comes next, the step is its turn (R73). -/
theorem step_of_env {s : State} {i : Input} {rest : List Turn} (h : s.agenda = .env i :: rest) :
    step s = environmentTurn i (takeTurn s) := by
  rcases step_cases s with ⟨hnil | ⟨_, hpe⟩, -⟩ | ⟨j, _, hj, hstep⟩
  · rw [h] at hnil; cases hnil
  · rw [h] at hpe; cases hpe
  · rw [h] at hj; cases hj; exact hstep

/-- Where an access comes next, the step asks for its verdict (R136). -/
theorem step_of_accessNext {s : State} {a : Acc} (h : AccessNext a s) : step s = accessTurn a (takeTurn s) := by
  obtain ⟨rest, hrest⟩ := List.head?_eq_some_iff.mp h.1
  exact step_of_env hrest

theorem peTurn_of_fetch_none {s : State} {r : Refusal} (h : fetch s = .none r) : peTurn s = .refused r := by
  simp [peTurn, h]

/-- Where the PE moves and the fetch finds no word, the step gives the fetch's reason (R51, R63). -/
theorem step_of_fetch_none {s : State} {r : Refusal} (hpe : PeMoves s) (h : fetch s = .none r) :
    step s = .refused r := by
  rw [step_of_peMoves hpe]
  exact peTurn_of_fetch_none (by simpa using h)

/-! The three ways a fetch finds no word (R51, R63). -/

theorem pcOffset_of_lt {s : State} (h : s.pc.toNat < s.progBase.toNat) : pcOffset s = none :=
  if_neg (by omega)

theorem pcOffset_of_add {s : State} {d : Nat} (h : s.pc.toNat = s.progBase.toNat + d) : pcOffset s = some d := by
  simp [pcOffset, h]

theorem fetch_of_lt {s : State} (h : s.pc.toNat < s.progBase.toNat) :
    fetch s = .none (.pcOutsideProgram s.pc) := by
  simp [fetch, pcOffset_of_lt h]

theorem fetch_of_misaligned {s : State} {d : Nat} (h : s.pc.toNat = s.progBase.toNat + d) (hd : d % 4 ≠ 0) :
    fetch s = .none (.pcMisaligned s.pc) := by
  simp [fetch, pcOffset_of_add h, hd]

theorem fetch_of_past_end {s : State} {k : Nat} (h : s.pc.toNat = s.progBase.toNat + 4 * k)
    (hk : s.program.length ≤ k) : fetch s = .none (.pcOutsideProgram s.pc) := by
  simp [fetch, pcOffset_of_add h, List.getElem?_eq_none hk]

/-- Settles O7: in each of the three places the fetch finds no word, and the PE's turn gives its reason. -/
theorem pcOutsideProgramRefused : Obligations.PcOutsideProgramRefused := by
  intro s hpe
  exact ⟨fun hlt => step_of_fetch_none hpe (fetch_of_lt hlt),
    fun _ hpc hd => step_of_fetch_none hpe (fetch_of_misaligned hpc hd),
    fun _ hpc hk => step_of_fetch_none hpe (fetch_of_past_end hpc hk)⟩

/-- Settles O47: without a previous value the counter update has no transition to look at, and only fills
c_prev. -/
theorem firstCounterValueEmitsNothing : Obligations.FirstCounterValueEmitsNothing := by
  intro s q rest hagenda hprev
  calc step s = .next (counterUpdate q (takeTurn s)) := step_of_env hagenda
    _ = .next { s with agenda := rest, cPrev := some q } := by
      simp [counterUpdate_spec, takeTurn, hagenda, hprev]

/-! The verdict on an access that no field stops. -/

/-- With no predicate true only KTrap tells the two verdicts apart (R136). -/
theorem trapVerdict_of_no_field {c : Cfg} {x : Ctx} {v : Word} {a : Acc} (h : ∀ f, fieldTraps f c x v a = false) :
    trapVerdict c x v a = if a ∈ x.kTraps then .byOther else .notByThisRegister := by
  rcases trapVerdict_cases c x v a with ⟨f, -, hf⟩ | ⟨hv, hk, -⟩ | ⟨hv, hk, -⟩
  · simp [h f] at hf
  · rw [hv, if_pos (by simpa [kTrap] using hk)]
  · rw [hv, if_neg (by simpa [kTrap] using hk)]

/-- A well-formed access that no field stops outputs its verdict (R57, R136). -/
theorem accessTurn_of_no_field {s : State} {a : Acc} (hw : a.wellFormed s.cfg s.ctx = true)
    (h : ∀ f, fieldTraps f s.cfg s.ctx s.cnthctl a = false) :
    accessTurn a s = .next (emit (.verdict a (if a ∈ s.ctx.kTraps then .byOther else .notByThisRegister)) s) := by
  have hverdict := trapVerdict_of_no_field h
  rcases accessTurn_cases a s with ⟨hn, -⟩ | ⟨-, ⟨f, hf, -⟩ | ⟨v, -, hv, hturn⟩⟩
  · simp [hw] at hn
  · simpa [h f] using fieldTraps_of_trapVerdict hf
  · rw [hturn, ← hverdict, hv]

/-- Settles O40: the access turn of such an access, from which only the turn has been taken before. -/
theorem accessNotStoppedOutputsVerdict : Obligations.AccessNotStoppedOutputsVerdict := by
  intro s a hnext hno
  rw [step_of_accessNext hnext]
  exact accessTurn_of_no_field (s := takeTurn s) hnext.2 hno

end Sys2Proof.Proofs.Turns

namespace Sys2Proof.Proofs.Invariant

open Sys2Proof.Machine Sys2Proof.Proofs.Parameters

/-! The values the register holds: the committed one and the pending ones. No operation but a write and a reset
brings a new one in, so a committed value is an older one or has been pending. -/

/-- The register holds `v` in `s`: committed, or pending by one of the two names (R20, R68). -/
abbrev Holds (s : State) (v : Word) : Prop := v = s.cnthctl ∨ ∃ n, v ∈ pend n s

theorem holds_takeTurn {s : State} {v : Word} : Holds (takeTurn s) v ↔ Holds s v := Iff.rfl

theorem drain_holds (n : Mnemonic) (s : State) : Holds s (drain n s).cnthctl := by
  rw [drain_cnthctl]
  cases h : pend n s with
  | nil => exact .inl rfl
  | cons v l => exact .inr ⟨n, by simp [h]⟩

/-- Every value that drains in a free order can leave is one the register holds before (R68). -/
theorem holds_of_drainedTo {s : State} {v : Word} (h : DrainedTo s v) : Holds s v := by
  have hpend : ∀ {n a}, (pend n s).getLast? = some a → Holds s a := fun {n} _ ha =>
    .inr ⟨n, List.mem_of_getLast? ha⟩
  unfold DrainedTo at h
  split at h
  · exact .inl h
  · next a hH _ => exact h ▸ hpend (n := .hctl) hH
  · next b _ hK => exact h ▸ hpend (n := .kctl) hK
  · next a b hH hK =>
    rcases h with rfl | rfl
    · exact hpend (n := .hctl) hH
    · exact hpend (n := .kctl) hK

theorem synchronize_holds (s : State) : Holds s (synchronize s).cnthctl := by
  obtain ⟨-, -, hdrained, -⟩ := synchronize_spec s
  exact holds_of_drainedTo hdrained

theorem changeContext_holds (y : Ctx) (s : State) : Holds s (changeContext y s).cnthctl := by
  by_cases hel : y.el = s.ctx.el
  · rw [changeContext_same hel]; exact .inl rfl
  · rw [changeContext_level hel]; exact synchronize_holds s

/-- An instruction commits nothing, but for SYNC, which drains (R68, R69). -/
theorem exec_holds {i : Instr} {s t : State} (h : exec i s = .next t) : Holds s t.cnthctl := by
  rcases exec_next_cases h with ⟨_, -, -, rfl⟩ | ⟨_, -, -, rfl⟩ | ⟨_, -, -, -, rfl⟩ | ⟨_, -, -, rfl⟩
    | ⟨_, -, -, -, rfl⟩ | ⟨_, -, -, rfl⟩ | ⟨-, rfl⟩
  case inr.inr.inr.inr.inr.inr => exact synchronize_holds s
  all_goals exact .inl (by simp)

theorem peTurn_holds {s t : State} (h : peTurn s = .next t) : Holds s t.cnthctl := by
  obtain ⟨_, _, -, -, hexec⟩ := peTurn_next h
  exact exec_holds hexec

/-- Of the turns of the other agents only a reset brings in a new committed value (R210). -/
theorem environmentTurn_holds {i : Input} {s t : State} (h : environmentTurn i s = .next t) :
    Holds s t.cnthctl ∨ ∃ e, i = .reset e := by
  rcases environmentTurn_next h with ⟨_, -, rfl⟩ | ⟨y, -, -, rfl⟩ | ⟨_, _, -, rfl⟩ | ⟨n, -, rfl⟩ | ⟨e, hi, -, -⟩
  · exact .inl (.inl (by simp))
  · exact .inl (changeContext_holds y s)
  · exact .inl (.inl (by simp))
  · exact .inl (drain_holds n s)
  · exact .inr ⟨e, hi⟩

theorem step_holds {s t : State} (h : step s = .next t) :
    Holds s t.cnthctl ∨ ∃ e rest, s.agenda = .env (.reset e) :: rest := by
  rcases step_cases s with ⟨-, hstep⟩ | ⟨i, rest, hagenda, hstep⟩ <;> rw [hstep] at h
  · exact .inl (holds_takeTurn.mp (peTurn_holds h))
  · rcases environmentTurn_holds h with hold | ⟨e, rfl⟩
    · exact .inl (holds_takeTurn.mp hold)
    · exact .inr ⟨e, rest, hagenda⟩

/-- Settles O9: the committed value after a step is one the register held before, unless the step was a reset. -/
theorem registerChangesOnlyByWriteOrReset : Obligations.RegisterChangesOnlyByWriteOrReset := by
  intro s t h
  rcases step_holds h with (hc | ⟨n, hn⟩) | hreset
  · exact .inl hc
  · cases n with
    | hctl => exact .inr (.inl hn)
    | kctl => exact .inr (.inr (.inl hn))
  · exact .inr (.inr (.inr hreset))

/-! The invariant, read for the two names at once. -/

/-- Only stored bits stand in `v` (R25). -/
abbrev StoredOnly (c : Cfg) (v : Word) : Prop := v &&& ~~~storedMask c = 0#64

/-- A write by the name `n` can have been made at the level `el` (R100 to R103). -/
def WritesAt (n : Mnemonic) (el : EL) : Prop :=
  match n with
  | .hctl => el = .el2 ∨ el = .el3
  | .kctl => el = .el2

/-- What holds once something is pending holds of every pending value. -/
theorem ne_nil_imp_iff {l : List Word} {p : Prop} : (l ≠ [] → p) ↔ ∀ v ∈ l, p := by
  constructor
  · exact fun h v hv => h (List.ne_nil_of_mem hv)
  · intro h hl
    obtain ⟨v, hv⟩ := List.exists_mem_of_ne_nil l hl
    exact h v hv

theorem inv_iff (s : State) :
    s.Inv ↔ StoredOnly s.cfg s.cnthctl
      ∧ (∀ n, ∀ v ∈ pend n s, StoredOnly s.cfg v ∧ WritesAt n s.ctx.el) ∧ s.ContextOk := by
  constructor
  · rintro ⟨⟨hc, hH, hK⟩, ⟨lH, lK⟩, hx⟩
    refine ⟨hc, fun n v hv => ?_, hx⟩
    cases n with
    | hctl => exact ⟨hH v hv, ne_nil_imp_iff.mp lH v hv⟩
    | kctl => exact ⟨hK v hv, ne_nil_imp_iff.mp lK v hv⟩
  · rintro ⟨hc, hp, hx⟩
    exact ⟨⟨hc, fun v hv => (hp .hctl v hv).1, fun v hv => (hp .kctl v hv).1⟩,
      ⟨ne_nil_imp_iff.mpr fun v hv => (hp .hctl v hv).2, ne_nil_imp_iff.mpr fun v hv => (hp .kctl v hv).2⟩, hx⟩

theorem storedOnly_of_holds {s : State} (h : s.Inv) {v : Word} (hv : Holds s v) : StoredOnly s.cfg v := by
  obtain ⟨hc, hp, -⟩ := (inv_iff s).mp h
  rcases hv with rfl | ⟨n, hn⟩
  · exact hc
  · exact (hp n v hn).1

/-- A masked value holds only stored bits (R25, R105). -/
theorem storedOnly_storedValue (c : Cfg) (v : Word) : StoredOnly c (storedValue c v) := by
  simp [StoredOnly, storedValue, BitVec.and_assoc]

/-! Each operation keeps the invariant: first those that touch nothing the invariant speaks of. -/

theorem inv_takeTurn (s : State) : (takeTurn s).Inv ↔ s.Inv := Iff.rfl
theorem inv_advance (s : State) : (advance s).Inv ↔ s.Inv := Iff.rfl
theorem inv_writeKctl (v : Word) (s : State) : (writeKctl v s).Inv ↔ s.Inv := Iff.rfl
theorem inv_emit (o : Output) (s : State) : (emit o s).Inv ↔ s.Inv := Iff.rfl

theorem inv_finishRead (r : RegNum) (v : Word) (s : State) : (finishRead r v s).Inv ↔ s.Inv := by
  simp [State.Inv, State.StoredBitsOnly, State.PendingAtItsLevel, State.ContextOk]

theorem inv_counterUpdate (q : Word) (s : State) : (counterUpdate q s).Inv ↔ s.Inv := by
  rw [counterUpdate_spec]

/-- A write appends a masked value, at a level that can make it (R68, R105). -/
theorem writeHctl_inv {n : Mnemonic} {s : State} (v : Word) (h : s.Inv) (hn : WritesAt n s.ctx.el) :
    (writeHctl n v s).Inv := by
  obtain ⟨hc, hp, hx⟩ := (inv_iff s).mp h
  refine (inv_iff _).mpr ⟨by simpa using hc, fun m u hu => ?_, by simpa [State.ContextOk] using hx⟩
  rw [writeHctl_cfg, writeHctl_ctx]
  rw [pend_writeHctl] at hu
  split at hu
  · next hmn =>
    subst hmn
    rcases List.mem_append.mp hu with hold | hnew
    · exact hp m u hold
    · cases List.mem_singleton.mp hnew
      exact ⟨storedOnly_storedValue s.cfg v, hn⟩
  · exact hp m u hu

/-- A drain moves a pending value into the register and leaves the rest pending (R68). -/
theorem drain_inv {s : State} (n : Mnemonic) (h : s.Inv) : (drain n s).Inv := by
  obtain ⟨-, hp, hx⟩ := (inv_iff s).mp h
  refine (inv_iff _).mpr ⟨?_, fun m u hu => ?_, by simpa [State.ContextOk] using hx⟩
  · rw [drain_cfg]; exact storedOnly_of_holds h (drain_holds n s)
  · rw [drain_cfg, drain_ctx]
    rw [pend_drain] at hu
    split at hu
    · next hmn => subst hmn; exact hp m u (List.mem_of_mem_tail hu)
    · exact hp m u hu

/-- With nothing pending, stored bits and a context an environment can supply are all the invariant asks. -/
theorem inv_of_nothing_pending {s : State} (hH : s.pendHctl = []) (hK : s.pendKctl = [])
    (hc : StoredOnly s.cfg s.cnthctl) (hx : s.ContextOk) : s.Inv :=
  (inv_iff s).mpr ⟨hc, fun n v hv => by cases n <;> simp [hH, hK] at hv, hx⟩

theorem synchronize_storedOnly {s : State} (h : s.Inv) : StoredOnly s.cfg (synchronize s).cnthctl :=
  storedOnly_of_holds h (synchronize_holds s)

theorem synchronize_inv {s : State} (h : s.Inv) : (synchronize s).Inv := by
  have ⟨_, _, hx⟩ := h
  refine inv_of_nothing_pending (by simp) (by simp) ?_ (by simpa [State.ContextOk] using hx)
  rw [synchronize_cfg]
  exact synchronize_storedOnly h

/-- At the same level the pending writes stay where they may; a change of level leaves none (R69). -/
theorem changeContext_inv {y : Ctx} {s : State} (h : s.Inv) (hy : y.wellFormed s.cfg = true) :
    (changeContext y s).Inv := by
  by_cases hel : y.el = s.ctx.el
  · obtain ⟨hc, hp, -⟩ := (inv_iff s).mp h
    rw [changeContext_same hel]
    exact (inv_iff _).mpr ⟨hc, fun n v hv => by simpa only [hel] using hp n v (by cases n <;> exact hv), hy⟩
  · rw [changeContext_level hel]
    refine inv_of_nothing_pending (synchronize_pendHctl s) (synchronize_pendKctl s) ?_ ?_
    · rw [synchronize_cfg]; exact synchronize_storedOnly h
    · simpa [State.ContextOk] using hy

/-- Reset masks its value and empties the lists (R25, R210). -/
theorem resetState_inv {c : Cfg} {e : ResetEnv} (he : e.ctx.wellFormed c = true) : (resetState c e).Inv :=
  inv_of_nothing_pending rfl rfl (storedOnly_storedValue c c.resetValue) he

theorem inv_resetInto (e : ResetEnv) (s : State) : (resetInto e s).Inv ↔ (resetState s.cfg e).Inv := Iff.rfl

theorem exec_inv {i : Instr} {s t : State} (hi : s.Inv) (h : exec i s = .next t) : t.Inv := by
  rcases exec_next_cases h with ⟨r, -, -, rfl⟩ | ⟨r, -, hel, rfl⟩ | ⟨r, -, -, -, rfl⟩ | ⟨r, -, -, rfl⟩
    | ⟨r, -, hel, -, rfl⟩ | ⟨r, -, -, rfl⟩ | ⟨-, rfl⟩
  · exact (inv_finishRead _ _ s).mpr hi
  · exact (inv_advance _).mpr (writeHctl_inv (n := .hctl) _ hi hel)
  · exact (inv_finishRead _ _ s).mpr hi
  · exact (inv_finishRead _ _ s).mpr hi
  · exact (inv_advance _).mpr (writeHctl_inv (n := .kctl) _ hi hel)
  · exact (inv_advance _).mpr ((inv_writeKctl _ s).mpr hi)
  · exact (inv_advance _).mpr (synchronize_inv hi)

theorem peTurn_inv {s t : State} (hi : s.Inv) (h : peTurn s = .next t) : t.Inv := by
  obtain ⟨_, _, -, -, hexec⟩ := peTurn_next h
  exact exec_inv hi hexec

theorem environmentTurn_inv {i : Input} {s t : State} (hi : s.Inv) (h : environmentTurn i s = .next t) :
    t.Inv := by
  rcases environmentTurn_next h with ⟨q, -, rfl⟩ | ⟨y, -, hy, rfl⟩ | ⟨_, _, -, rfl⟩ | ⟨n, -, rfl⟩ | ⟨e, -, he, rfl⟩
  · exact (inv_counterUpdate q s).mpr hi
  · exact changeContext_inv hi hy
  · exact (inv_emit _ s).mpr hi
  · exact drain_inv n hi
  · exact (inv_resetInto e s).mpr (resetState_inv he)

/-- Settles O28: a step is a turn of the PE or of another agent, and each operation a turn consists of keeps the
invariant. -/
theorem stepKeepsInvariant : Obligations.StepKeepsInvariant := by
  intro s t hi h
  have hturn : (takeTurn s).Inv := (inv_takeTurn s).mpr hi
  rcases step_cases s with ⟨-, hstep⟩ | ⟨i, _, -, hstep⟩ <;> rw [hstep] at h
  · exact peTurn_inv hturn h
  · exact environmentTurn_inv hturn h

/-- EL3 is implemented behind `State.reset`, EL2 not enabled and KTrap empty (log entry 4; R5, R15, R122). -/
theorem resetCtx_wellFormed : Config.resetCtx.wellFormed Config.implementation = true := by
  simp [Ctx.wellFormed, Ctx.levelOk, Ctx.el2EnabledOk, Ctx.kTrapsOk, Config.resetCtx, Config.implementation]

/-- Settles O29: reset leaves nothing pending, and a masked value in the register. -/
theorem resetEstablishesInvariant : Obligations.ResetEstablishesInvariant :=
  ⟨fun _ _ he => resetState_inv he, resetState_inv resetCtx_wellFormed⟩

end Sys2Proof.Proofs.Invariant

namespace Sys2Proof.Proofs.Layouts

open Sys2Proof.Machine

/-! Which layout is in force (R22). -/

theorem usesLayout1_iff (c : Cfg) (x : Ctx) :
    usesLayout1 c x = true ↔ c.haveEL2 = true ∧ c.haveE2H = true ∧ x.hcrE2H = true := by
  simp only [usesLayout1, e2h, Bool.and_eq_true]
  tauto

theorem layoutInForce_eq_one_iff (c : Cfg) (x : Ctx) : layoutInForce c x = .one ↔ usesLayout1 c x = true := by
  cases h : usesLayout1 c x <;> simp [layoutInForce, h]

theorem layoutInForce_eq_two_iff (c : Cfg) (x : Ctx) : layoutInForce c x = .two ↔ ¬ usesLayout1 c x = true := by
  cases h : usesLayout1 c x <;> simp [layoutInForce, h]

/-- Settles O32: the layout in force is Layout 1 exactly where UsesLayout1 holds, and Layout 2 elsewhere. -/
theorem layoutSelectedByE2H : Obligations.LayoutSelectedByE2H := fun c x =>
  ⟨(layoutInForce_eq_one_iff c x).trans (usesLayout1_iff c x),
    (layoutInForce_eq_two_iff c x).trans (not_congr (usesLayout1_iff c x))⟩

/-! FieldMask as four ranges of bits, each under the parameter its fields need (R25). -/

/-- A run of `width` ones from bit `lo` on. -/
theorem getLsbD_onesFrom (lo width n : Nat) (h : lo + width ≤ 64) :
    (BitVec.ofNat 64 ((2 ^ width - 1) <<< lo)).getLsbD n = true ↔ lo ≤ n ∧ n < lo + width := by
  simp only [BitVec.getLsbD_ofNat, Nat.testBit_shiftLeft, Nat.testBit_two_pow_sub_one, Bool.and_eq_true,
    decide_eq_true_eq]
  omega

theorem fieldMask_eq_ranges (c : Cfg) :
    fieldMask c = BitVec.ofNat 64 ((2 ^ 8 - 1) <<< 0)
      ||| (if c.haveE2H then BitVec.ofNat 64 ((2 ^ 4 - 1) <<< 8) else 0#64)
      ||| (if c.haveECV then BitVec.ofNat 64 ((2 ^ 6 - 1) <<< 12) else 0#64)
      ||| (if c.haveMaskBits then BitVec.ofNat 64 ((2 ^ 2 - 1) <<< 18) else 0#64) := rfl

theorem getLsbD_ite_zero {p : Bool} {v : Word} {n : Nat} :
    (if p then v else 0#64).getLsbD n = true ↔ p = true ∧ v.getLsbD n = true := by
  cases p <;> simp

/-- The bits of FieldMask(Cfg) (R25). -/
theorem fieldMask_getLsbD_iff (c : Cfg) (n : Nat) :
    (fieldMask c).getLsbD n = true ↔
      n < 8 ∨ (c.haveE2H = true ∧ 8 ≤ n ∧ n < 12) ∨ (c.haveECV = true ∧ 12 ≤ n ∧ n < 18)
        ∨ (c.haveMaskBits = true ∧ 18 ≤ n ∧ n < 20) := by
  rw [fieldMask_eq_ranges]
  simp only [BitVec.getLsbD_or, Bool.or_eq_true, getLsbD_ite_zero]
  rw [getLsbD_onesFrom 0 8 n (by decide), getLsbD_onesFrom 8 4 n (by decide),
    getLsbD_onesFrom 12 6 n (by decide), getLsbD_onesFrom 18 2 n (by decide)]
  simp [or_assoc]

/-! The fields that cover the bits of each range (R23, R24). -/

/-- A field of one of the figures that the configuration has and that covers bit `n`. -/
abbrev PresentFieldCovers (c : Cfg) (f : Field) (n : Nat) : Prop :=
  (f ∈ figure .one ∨ f ∈ figure .two) ∧ fieldPresent c f = true ∧ fieldLo f ≤ n ∧ n < fieldLo f + fieldWidth f

/-- A present field covers only bits of its parameter's range. -/
theorem fieldMask_of_covers {c : Cfg} {f : Field} {n : Nat} (h : PresentFieldCovers c f n) :
    (fieldMask c).getLsbD n = true := by
  obtain ⟨-, hpresent, hlo, hhi⟩ := h
  rw [fieldMask_getLsbD_iff]
  cases f with
  | evnti | evntdir | evnten | el1pcen | l2El1pcten | el0vcten | el0pcten =>
    exact .inl (hhi.trans_le (by decide))
  | el1pten | l1El1pcten | el0pten | el0vten =>
    exact .inr (.inl ⟨hpresent, .trans (by decide) hlo, hhi.trans_le (by decide)⟩)
  | evntis | el1nvvct | el1nvpct | el1tvct | el1tvt | ecv =>
    exact .inr (.inr (.inl ⟨hpresent, .trans (by decide) hlo, hhi.trans_le (by decide)⟩))
  | cntpmask | cntvmask =>
    exact .inr (.inr (.inr ⟨hpresent, .trans (by decide) hlo, hhi.trans_le (by decide)⟩))

theorem mem_figure (f : Field) : f ∈ figure .one ∨ f ∈ figure .two := by
  cases f <;> decide

/-- Fields that share the parameter `p` cover a bit as soon as one of them does. -/
theorem exists_presentFieldCovers {c : Cfg} {n : Nat} {p : Bool} (l : List Field) (hp : p = true)
    (hl : ∀ f ∈ l, fieldPresent c f = p) (h : ∃ f ∈ l, fieldLo f ≤ n ∧ n < fieldLo f + fieldWidth f) :
    ∃ f, PresentFieldCovers c f n := by
  obtain ⟨f, hf, hcovers⟩ := h
  exact ⟨f, mem_figure f, (hl f hf).trans hp, hcovers⟩

/-- Each range is covered by the fields of one parameter; bits [7:0] by those of Layout 2, which are always
present. -/
theorem exists_field_of_fieldMask {c : Cfg} {n : Nat} (h : (fieldMask c).getLsbD n = true) :
    ∃ f, PresentFieldCovers c f n := by
  rw [fieldMask_getLsbD_iff] at h
  rcases h with hhi | ⟨hE2H, hlo, hhi⟩ | ⟨hECV, hlo, hhi⟩ | ⟨hMask, hlo, hhi⟩
  · refine exists_presentFieldCovers [.evnti, .evntdir, .evnten, .el1pcen, .l2El1pcten] rfl
      (by simp [fieldPresent]) ?_
    revert n; decide
  · refine exists_presentFieldCovers [.el1pten, .l1El1pcten, .el0pten, .el0vten] hE2H
      (by simp [fieldPresent]) ?_
    revert n; decide
  · refine exists_presentFieldCovers [.evntis, .el1nvvct, .el1nvpct, .el1tvct, .el1tvt, .ecv] hECV
      (by simp [fieldPresent]) ?_
    revert n; decide
  · refine exists_presentFieldCovers [.cntpmask, .cntvmask] hMask (by simp [fieldPresent]) ?_
    revert n; decide

/-- Settles O31: FieldMask is the union of four ranges of bits, and so are the bits of the present fields. -/
theorem fieldMaskCoversPresentFields : Obligations.FieldMaskCoversPresentFields := fun _ _ =>
  ⟨exists_field_of_fieldMask, fun ⟨_, h⟩ => fieldMask_of_covers h⟩

end Sys2Proof.Proofs.Layouts

namespace Sys2Proof.Proofs.IndirectReaders

open Sys2Proof.Machine Sys2Proof.Proofs.Layouts

/-! The indirect readers of the register (R26, R70) and the bits they read. -/

/-- The bits an indirect reader can read: [11:8] only while Layout 1 applies (R39), those of the optional fields
only where the field exists (R23, R24). -/
def BitRead (c : Cfg) (x : Ctx) (n : Nat) : Prop :=
  n < 8 ∨ (usesLayout1 c x = true ∧ 8 ≤ n ∧ n < 12) ∨ (c.haveECV = true ∧ 12 ≤ n ∧ n < 18)
    ∨ (c.haveMaskBits = true ∧ 18 ≤ n ∧ n < 20)

/-- Two register values with the same bits wherever a reader looks. -/
def SameReadBits (c : Cfg) (x : Ctx) (v w : Word) : Prop := ∀ n, BitRead c x n → bit v n = bit w n

/-- Two register values that no access, event, mask override or ECV enable tells apart. -/
abbrev SameReadings (c : Cfg) (x : Ctx) (v w : Word) : Prop :=
  (∀ f a, fieldTraps f c x v a = fieldTraps f c x w a)
    ∧ (∀ a, trapVerdict c x v a = trapVerdict c x w a)
    ∧ (∀ p q, eventAt c x v p q = eventAt c x w p q)
    ∧ maskP c x v = maskP c x w ∧ maskV c x v = maskV c x w ∧ ecvOn c x v = ecvOn c x w

section
variable {c : Cfg} {x : Ctx} {v w : Word}

theorem SameReadBits.low (h : SameReadBits c x v w) {n : Nat} (hn : n < 8) : bit v n = bit w n :=
  h n (.inl hn)

theorem SameReadBits.layoutOne (h : SameReadBits c x v w) (hL : usesLayout1 c x = true) {n : Nat}
    (hlo : 8 ≤ n) (hhi : n < 12) : bit v n = bit w n :=
  h n (.inr (.inl ⟨hL, hlo, hhi⟩))

theorem SameReadBits.ecv (h : SameReadBits c x v w) (hE : c.haveECV = true) {n : Nat}
    (hlo : 12 ≤ n) (hhi : n < 18) : bit v n = bit w n :=
  h n (.inr (.inr (.inl ⟨hE, hlo, hhi⟩)))

theorem SameReadBits.mask (h : SameReadBits c x v w) (hM : c.haveMaskBits = true) {n : Nat}
    (hlo : 18 ≤ n) (hhi : n < 20) : bit v n = bit w n :=
  h n (.inr (.inr (.inr ⟨hM, hlo, hhi⟩)))

/-- Each predicate reads its own field, under the condition that makes the field exist (R123 to R135). -/
theorem fieldTraps_congr (h : SameReadBits c x v w) (f : Field) (a : Acc) :
    fieldTraps f c x v a = fieldTraps f c x w a := by
  cases f with
  | el0vcten | el0pcten | el1pcen | l2El1pcten =>
    simp [fieldTraps, trapsEl0vcten, trapsEl0pcten, trapsEl1pcen, trapsL2El1pcten, h.low]
  | el1pten | l1El1pcten | el0pten | el0vten =>
    by_cases hL : usesLayout1 c x = true
    · simp [fieldTraps, trapsEl1pten, trapsL1El1pcten, trapsEl0pten, trapsEl0vten, h.layoutOne hL]
    · simp [fieldTraps, trapsEl1pten, trapsL1El1pcten, trapsEl0pten, trapsEl0vten, hL]
  | el1tvt | el1tvct | el1nvpct | el1nvvct =>
    by_cases hE : c.haveECV = true
    · simp [fieldTraps, trapsEl1tvt, trapsEl1tvct, trapsEl1nvpct, trapsEl1nvvct, h.ecv hE]
    · simp [fieldTraps, trapsEl1tvt, trapsEl1tvct, trapsEl1nvpct, trapsEl1nvvct, hE]
  | cntpmask | cntvmask | evntis | ecv | evnti | evntdir | evnten => rfl

/-- The verdict reads the register only through the predicates (R136). -/
theorem trapVerdict_congr (h : ∀ f a, fieldTraps f c x v a = fieldTraps f c x w a) (a : Acc) :
    trapVerdict c x v a = trapVerdict c x w a := by
  simp only [trapVerdict, h]

/-- The value of a field depends only on the bits it covers (R10). -/
theorem fieldValue_congr {f : Field} (h : ∀ i < fieldWidth f, bit v (fieldLo f + i) = bit w (fieldLo f + i)) :
    fieldValue f v = fieldValue f w := by
  refine Nat.eq_of_testBit_eq fun i => ?_
  simp only [fieldValue, Nat.testBit_mod_two_pow, Nat.testBit_div_two_pow]
  by_cases hi : i < fieldWidth f
  · have hbit : v.toNat.testBit (fieldLo f + i) = w.toNat.testBit (fieldLo f + i) := h i hi
    rw [Nat.add_comm i, hbit]
  · simp [hi]

/-- EVNTI, and EVNTIS where it exists, give the trigger index (R161). -/
theorem trigIdx_congr (h : SameReadBits c x v w) : trigIdx c v = trigIdx c w := by
  have hevnti : fieldValue .evnti v = fieldValue .evnti w :=
    fieldValue_congr fun i hi => h.low (n := 4 + i) (Nat.add_lt_add_left hi 4)
  by_cases hE : c.haveECV = true
  · simp [trigIdx, hevnti, h.ecv hE]
  · simp [trigIdx, hevnti, hE]

theorem eventAt_congr (h : SameReadBits c x v w) (p q : Word) : eventAt c x v p q = eventAt c x w p q := by
  simp [eventAt, streamOn, fires, trigIdx_congr h, h.low]

theorem maskP_congr (h : SameReadBits c x v w) : maskP c x v = maskP c x w := by
  by_cases hM : c.haveMaskBits = true
  · simp [maskP, h.mask hM]
  · simp [maskP, hM]

theorem maskV_congr (h : SameReadBits c x v w) : maskV c x v = maskV c x w := by
  by_cases hM : c.haveMaskBits = true
  · simp [maskV, h.mask hM]
  · simp [maskV, hM]

theorem ecvOn_congr (h : SameReadBits c x v w) : ecvOn c x v = ecvOn c x w := by
  by_cases hE : c.haveECV = true
  · simp [ecvOn, h.ecv hE]
  · simp [ecvOn, hE]

/-- No reader looks at any other bit. -/
theorem sameReadings_of_sameReadBits (h : SameReadBits c x v w) : SameReadings c x v w :=
  ⟨fieldTraps_congr h, trapVerdict_congr (fieldTraps_congr h), eventAt_congr h, maskP_congr h, maskV_congr h,
    ecvOn_congr h⟩

end

/-- Every bit that is read is a bit of a field (R26). -/
theorem fieldMask_of_bitRead {c : Cfg} {x : Ctx} {n : Nat} (h : BitRead c x n) : bit (fieldMask c) n = true := by
  have hE2H (hL : usesLayout1 c x = true) : c.haveE2H = true := by
    obtain ⟨-, hE2H, -⟩ := (usesLayout1_iff c x).mp hL
    exact hE2H
  exact (fieldMask_getLsbD_iff c n).mpr (h.imp_right (Or.imp_left (And.imp_left hE2H)))

/-- While Layout 2 applies no bit of [11:8] is read (R39). -/
theorem bitRead_of_layoutTwo {c : Cfg} {x : Ctx} (h2 : layoutInForce c x = .two) {n : Nat}
    (h : BitRead c x n) : n < 8 ∨ 12 ≤ n ∧ n < 20 := by
  have hL := (layoutInForce_eq_two_iff c x).mp h2
  rcases h with h | ⟨h, -⟩ | ⟨-, h⟩ | ⟨-, h⟩
  · exact .inl h
  · exact absurd h hL
  · exact .inr (by omega)
  · exact .inr (by omega)

/-- Settles O33: FieldMask keeps every bit that a reader looks at. -/
theorem onlyFieldBitsHaveEffect : Obligations.OnlyFieldBitsHaveEffect := by
  intro c x v
  refine sameReadings_of_sameReadBits fun n hn => ?_
  rw [bit_and, fieldMask_of_bitRead hn, Bool.and_true]

/-- The mask that leaves out bits [11:8] keeps every other bit that a field can cover. -/
theorem bit_maskOutsideLayoutOne {n : Nat} (h : n < 8 ∨ 12 ≤ n ∧ n < 20) :
    bit 0xFFFFFFFFFFFFF0FF#64 n = true := by
  have : ∀ k < 20, k < 8 ∨ 12 ≤ k → bit 0xFFFFFFFFFFFFF0FF#64 k = true := by decide
  exact this n (by omega) (by omega)

/-- Settles O34: in Layout 2 every bit that a reader looks at lies outside [11:8], where the two values agree. -/
theorem layoutTwoIgnoresBits11To8 : Obligations.LayoutTwoIgnoresBits11To8 := by
  intro c x v w h2 hvw
  refine sameReadings_of_sameReadBits fun n hn => ?_
  have hmask := bit_maskOutsideLayoutOne (bitRead_of_layoutTwo h2 hn)
  have hbit := congrArg (bit · n) hvw
  simpa [hmask] using hbit

end Sys2Proof.Proofs.IndirectReaders

namespace Sys2Proof.Proofs.DecodedStep

open Sys2Proof.Machine

/-! The PE's turn where the word at pc decodes to an instruction. -/

/-- The fetch finds the word at pc (R61, R63). -/
theorem fetch_of_wordAtPc {s : State} {w : InstrWord} (h : WordAtPc s w) : fetch s = .word w := by
  obtain ⟨k, -, hpc, hk⟩ := h
  simp [fetch, Turns.pcOffset_of_add hpc, hk]

theorem peTurn_of_decode {s : State} {w : InstrWord} {i : Instr} (hw : WordAtPc s w) (hd : decode w = .instr i) :
    peTurn s = exec i s := by
  simp [peTurn, fetch_of_wordAtPc hw, hd]

theorem takeTurn_of_nil {s : State} (h : s.agenda = []) : takeTurn s = s := by
  unfold takeTurn
  rw [h, List.tail_nil, ← h]

theorem takeTurn_of_cons {s : State} {turn : Turn} {rest : List Turn} (h : s.agenda = turn :: rest) :
    takeTurn s = { s with agenda := rest } := by
  rw [takeTurn, h, List.tail_cons]

/-- Settles O6: where the PE moves, the step is the PE's turn, and the turn is exec of the decoded instruction. -/
theorem stepRunsDecodedInstruction : Obligations.StepRunsDecodedInstruction := by
  intro s w i hw hd _
  have hturn : peTurn (takeTurn s) = exec i (takeTurn s) := peTurn_of_decode hw hd
  refine ⟨fun hnil => ?_, fun rest hpe => ?_⟩
  · rw [step_of_peMoves (.inl hnil), hturn, takeTurn_of_nil hnil]
  · rw [step_of_peMoves (.inr ⟨rest, hpe⟩), hturn, takeTurn_of_cons hpe]

end Sys2Proof.Proofs.DecodedStep

namespace Sys2Proof.Proofs.Drains

open Sys2Proof.Machine Sys2Proof.Proofs.DecodedStep

/-! Drain turns: one of them, and a run over a list of them. -/

theorem step_of_drain {s : State} {n : Mnemonic} {rest : List Turn} (h : s.agenda = .env (.drain n) :: rest) :
    step s = .next (drain n { s with agenda := rest }) := by
  rw [Turns.step_of_env h, takeTurn_of_cons h]
  rfl

theorem step_of_drain_cons {s : State} {n : Mnemonic} {rest : List Turn} {v : Word} {l : List Word}
    (h : s.agenda = .env (.drain n) :: rest) (hp : pend n s = v :: l) :
    step s = .next (commit v (setPend n l { s with agenda := rest })) := by
  rw [step_of_drain h, drain_of_cons (v := v) (l := l) (by cases n <;> exact hp)]

theorem step_of_drain_nil {s : State} {n : Mnemonic} {rest : List Turn}
    (h : s.agenda = .env (.drain n) :: rest) (hp : pend n s = []) :
    step s = .next { s with agenda := rest } := by
  rw [step_of_drain h, drain_of_nil (by cases n <;> exact hp)]

/-- Settles O26: the two forms of a drain turn, read for each mnemonic. -/
theorem drainCommitsOldest : Obligations.DrainCommitsOldest := by
  intro s rest v l
  exact ⟨fun h => ⟨step_of_drain_cons h, step_of_drain_nil h⟩,
    fun h => ⟨step_of_drain_cons h, step_of_drain_nil h⟩⟩

/-- A drain neither reads nor writes the turns to come. -/
theorem drain_withAgenda (n : Mnemonic) (s : State) (l : List Turn) :
    drain n { s with agenda := l } = { drain n s with agenda := l } := by
  cases n with
  | hctl => cases h : s.pendHctl <;> simp [drain, h, commit, setPend]
  | kctl => cases h : s.pendKctl <;> simp [drain, h, commit, setPend]

@[simp] theorem drains_nil (s : State) : drains [] s = s := rfl
@[simp] theorem drains_cons (n : Mnemonic) (ns : List Mnemonic) (s : State) :
    drains (n :: ns) s = drains ns (drain n s) := rfl

/-- What every drain keeps, any sequence of drains keeps. -/
theorem drains_keep {P : State → Prop} (keep : ∀ n u, P u → P (drain n u)) (ns : List Mnemonic) {s : State}
    (h : P s) : P (drains ns s) := by
  induction ns generalizing s with
  | nil => exact h
  | cons n ns ih => exact ih (keep n s h)

@[simp] theorem drains_cfg (ns : List Mnemonic) (s : State) : (drains ns s).cfg = s.cfg :=
  drains_keep (P := fun u => u.cfg = s.cfg) (fun n u h => (drain_cfg n u).trans h) ns rfl

@[simp] theorem drains_ctx (ns : List Mnemonic) (s : State) : (drains ns s).ctx = s.ctx :=
  drains_keep (P := fun u => u.ctx = s.ctx) (fun n u h => (drain_ctx n u).trans h) ns rfl

theorem run_succ_of_next {s t : State} (h : step s = .next t) (k : Nat) :
    Host.Core.run core (k + 1) s = Host.Core.run core k t := by
  have hcore : core.step s = .next t := h
  simp only [Host.Core.run, hcore]

/-- A run over an agenda of drain turns performs these drains in their order (R68, R73). -/
theorem run_drainTurns (ns : List Mnemonic) (s : State) (rest : List Turn) :
    Host.Core.run core ns.length { s with agenda := ns.map (.env <| .drain ·) ++ rest }
      = .next (drains ns { s with agenda := rest }) := by
  induction ns generalizing s with
  | nil => rfl
  | cons n ns ih =>
    have hstep : step { s with agenda := (n :: ns).map (.env <| .drain ·) ++ rest }
        = .next { drain n s with agenda := ns.map (.env <| .drain ·) ++ rest } :=
      (step_of_drain rfl).trans (congrArg _ (drain_withAgenda n s _))
    calc Host.Core.run core (ns.length + 1) { s with agenda := (n :: ns).map (.env <| .drain ·) ++ rest }
        = Host.Core.run core ns.length { drain n s with agenda := ns.map (.env <| .drain ·) ++ rest } :=
          run_succ_of_next hstep _
      _ = .next (drains ns { drain n s with agenda := rest }) := ih (drain n s)
      _ = .next (drains (n :: ns) { s with agenda := rest }) := by rw [drains_cons, drain_withAgenda n s rest]

/-! The life of one write: pending alone, then committed. -/

/-- The other of the two names (R68). -/
def other : Mnemonic → Mnemonic
  | .hctl => .kctl
  | .kctl => .hctl

@[simp] theorem other_other (n : Mnemonic) : other (other n) = n := by cases n <;> rfl
@[simp] theorem other_ne (n : Mnemonic) : other n ≠ n := by cases n <;> decide

theorem eq_or_eq_other (n m : Mnemonic) : m = n ∨ m = other n := by cases n <;> cases m <;> decide

/-- One write is pending, `v` by the name `n`, over the committed value `c`. -/
def OnlyPending (n : Mnemonic) (v c : Word) (s : State) : Prop :=
  pend n s = [v] ∧ pend (other n) s = [] ∧ s.cnthctl = c

/-- Nothing is pending, and `v` is committed. -/
def Settled (v : Word) (s : State) : Prop := (∀ n, pend n s = []) ∧ s.cnthctl = v

theorem Settled.lists {v : Word} {s : State} (h : Settled v s) : s.pendHctl = [] ∧ s.pendKctl = [] :=
  ⟨h.1 .hctl, h.1 .kctl⟩

/-- The drain of its name commits the one pending write. -/
theorem OnlyPending.settled_drain {n : Mnemonic} {v c : Word} {s : State} (h : OnlyPending n v c s) :
    Settled v (drain n s) := by
  obtain ⟨hn, ho, -⟩ := h
  refine ⟨fun m => ?_, by simp [drain_cnthctl, hn]⟩
  rcases eq_or_eq_other n m with rfl | rfl
  · simp [pend_drain, hn]
  · simp [pend_drain, ho]

/-- A drain of the other name finds nothing to commit. -/
theorem OnlyPending.drain_other {n : Mnemonic} {v c : Word} {s : State} (h : OnlyPending n v c s) :
    drain (other n) s = s :=
  drain_of_nil h.2.1

/-- Drains in a free order have only the one pending write to leave. -/
theorem OnlyPending.eq_of_drainedTo {n : Mnemonic} {v c w : Word} {s : State} (h : OnlyPending n v c s)
    (hw : DrainedTo s w) : w = v := by
  obtain ⟨hn, ho, -⟩ := h
  cases n with
  | hctl =>
    have hH : s.pendHctl = [v] := hn
    have hK : s.pendKctl = [] := ho
    simpa [DrainedTo, hH, hK] using hw
  | kctl =>
    have hK : s.pendKctl = [v] := hn
    have hH : s.pendHctl = [] := ho
    simpa [DrainedTo, hH, hK] using hw

theorem Settled.drain_eq {v : Word} {s : State} (h : Settled v s) (n : Mnemonic) : drain n s = s :=
  drain_of_nil (h.1 n)

/-- Of two pending writes the drain of the one leaves the other pending alone. -/
theorem onlyPending_drain_of_both {n : Mnemonic} {a b : Word} {s : State} (hn : pend n s = [a])
    (ho : pend (other n) s = [b]) : OnlyPending (other n) b a (drain n s) :=
  ⟨by simp [pend_drain, ho], by simp [pend_drain, hn], by simp [drain_cnthctl, hn]⟩

/-- Of two pending writes the one drained last stays (R68, R212). -/
theorem settled_drains_of_both {n : Mnemonic} {a b : Word} {s : State} (hn : pend n s = [a])
    (ho : pend (other n) s = [b]) : Settled b (drains [n, other n] s) :=
  (onlyPending_drain_of_both hn ho).settled_drain

/-- Settles O25: the run performs the two drains, and the write drained last stays. -/
theorem eitherPendingWriteMayLast : Obligations.EitherPendingWriteMayLast := by
  intro s a b hH hK
  have hlast : Settled b (drains [.hctl, .kctl] { s with agenda := [] }) :=
    settled_drains_of_both (n := .hctl) hH hK
  have hfirst : Settled a (drains [.kctl, .hctl] { s with agenda := [] }) :=
    settled_drains_of_both (n := .kctl) hK hH
  exact ⟨⟨_, run_drainTurns [.hctl, .kctl] s [], hlast.2, hlast.lists⟩,
    ⟨_, run_drainTurns [.kctl, .hctl] s [], hfirst.2, hfirst.lists⟩⟩

end Sys2Proof.Proofs.Drains

namespace Sys2Proof.Proofs.Synchronization

open Sys2Proof.Machine Sys2Proof.Proofs.DecodedStep

/-! The two places that synchronize: the instruction, and a change of level (R69). -/

theorem exec_sync (s : State) : exec .sync s = .next (advance (synchronize s)) := rfl

/-- Settles O14: SYNC is Sync followed by the advance of pc, which touches nothing that Sync speaks of. -/
theorem syncEmptiesBothLists : Obligations.SyncEmptiesBothLists := fun s =>
  ⟨advance (synchronize s), exec_sync s, synchronize_spec s, pcAdvanced_of_pc (by simp)⟩

theorem contextTurn_of_wellFormed {y : Ctx} {s : State} (h : y.wellFormed s.cfg = true) :
    contextTurn y s = .next (changeContext y s) := if_pos h

theorem contextTurn_of_not_wellFormed {y : Ctx} {s : State} (h : y.wellFormed s.cfg = false) :
    contextTurn y s = .refused (.illFormedContext y) := if_neg (by simp [h])

/-- A change of level leaves nothing pending (R69). -/
theorem changeContext_drains {y : Ctx} {s : State} (h : y.el ≠ s.ctx.el) :
    (changeContext y s).pendHctl = [] ∧ (changeContext y s).pendKctl = []
      ∧ DrainedTo s (changeContext y s).cnthctl := by
  obtain ⟨hH, hK, hdrained, -⟩ := synchronize_spec s
  rw [changeContext_level h]
  exact ⟨hH, hK, hdrained⟩

/-- A change of context at one level keeps the register, committed and pending (R39). -/
theorem changeContext_sameHctl {y : Ctx} {s : State} (h : y.el = s.ctx.el) : SameHctl s (changeContext y s) := by
  rw [changeContext_same h]
  exact ⟨rfl, rfl, rfl, rfl⟩

/-- Settles O27: the step is the context turn, which writes the context and beside it only what Sync writes. -/
theorem changeOfLevelSynchronizes : Obligations.ChangeOfLevelSynchronizes := by
  intro s y rest hagenda
  have hstep : step s = contextTurn y { s with agenda := rest } := by
    rw [Turns.step_of_env hagenda, takeTurn_of_cons hagenda]
    rfl
  refine ⟨fun hy => ⟨_, hstep.trans (contextTurn_of_wellFormed hy), ?_⟩,
    fun hy => hstep.trans (contextTurn_of_not_wellFormed hy)⟩
  exact ⟨changeContext_ctx _ _, changeContext_pc _ _, changeContext_x _ _, changeContext_cntkctl _ _,
    changeContext_cPrev _ _, changeContext_agenda _ _, changeContext_outputs _ _,
    changeContext_drains (s := { s with agenda := rest }),
    changeContext_sameHctl (s := { s with agenda := rest })⟩

end Sys2Proof.Proofs.Synchronization

namespace Sys2Proof.Proofs.Litmus

open Sys2Proof.Machine Sys2Proof.Proofs.Drains Sys2Proof.Proofs.Synchronization

/-! The accessors by the name they are written with, where that name reaches CNTHCTL_EL2. -/

/-- The instruction that writes by the name `n`. -/
def writeBy (n : Mnemonic) (r : RegNum) : Instr :=
  match n with
  | .hctl => .msrCnthctlEl2 r
  | .kctl => .msrCntkctlEl1 r

/-- The instruction that reads by the name `n`. -/
def readBy (n : Mnemonic) (u : RegNum) : Instr :=
  match n with
  | .hctl => .mrsCnthctlEl2 u
  | .kctl => .mrsCntkctlEl1 u

/-- The name `n` reaches CNTHCTL_EL2 (R100 to R103): its own at EL2 and EL3, the EL1 name where it is
redirected. -/
def Reaches (n : Mnemonic) (c : Cfg) (x : Ctx) : Prop :=
  match n with
  | .hctl => x.el = .el2 ∨ x.el = .el3
  | .kctl => x.el = .el2 ∧ e2h c x = true

theorem accessCnthctl_of_reaches {y : Syndrome} {d s : State} (h : Reaches .hctl s.cfg s.ctx) :
    accessCnthctl y d s = .next d := by
  rcases h with h | h <;> simp [accessCnthctl, h]

theorem accessCntkctl_of_reaches {c d s : State} (h : Reaches .kctl s.cfg s.ctx) :
    accessCntkctl c d s = .next d := by
  obtain ⟨hel, he2h⟩ := h
  simp [accessCntkctl, hel, he2h]

/-- A write by a name that reaches the register is pending by that name (R101, R103). -/
theorem exec_writeBy {n : Mnemonic} {s : State} (h : Reaches n s.cfg s.ctx) (r : RegNum) :
    exec (writeBy n r) s = .next (advance (writeHctl n (readX r s) s)) := by
  cases n with
  | hctl => exact accessCnthctl_of_reaches h
  | kctl => exact accessCntkctl_of_reaches h

/-- A read by a name that reaches the register delivers what that name reads (R100, R102). -/
theorem exec_readBy {n : Mnemonic} {s : State} (h : Reaches n s.cfg s.ctx) (u : RegNum) :
    exec (readBy n u) s = .next (finishRead u (readHctl n s) s) := by
  cases n with
  | hctl => exact accessCnthctl_of_reaches h
  | kctl => exact accessCntkctl_of_reaches h

/-- A read in `s` completes with `v` in its operand; the other registers are those of `t`. -/
theorem exists_read {n : Mnemonic} {s t : State} {v : Word} (h : Reaches n s.cfg s.ctx) (u : RegNum)
    (hv : readHctl n s = v) (hx : s.x = t.x) :
    ∃ w, exec (readBy n u) s = .next w ∧ XWritten u v t w := by
  refine ⟨_, exec_readBy h u, fun k => ?_⟩
  rw [hv, ← readX_of_x_eq k hx]
  exact xWritten_finishRead u v s k

theorem pend_advance (n : Mnemonic) (s : State) : pend n (advance s) = pend n s := by cases n <;> rfl

theorem readHctl_advance (n : Mnemonic) (s : State) : readHctl n (advance s) = readHctl n s := by
  simp [readHctl, pend_advance]

/-! One name: its reads see its own latest write (R67). -/

/-- With nothing pending by the other name, drains change nothing of what a name reads. -/
theorem readHctl_drains {n : Mnemonic} {s : State} (ho : pend (other n) s = []) (ns : List Mnemonic) :
    readHctl n (drains ns s) = readHctl n s := by
  refine (drains_keep (P := fun u => pend (other n) u = [] ∧ readHctl n u = readHctl n s)
    (fun m u hu => ?_) ns ⟨ho, rfl⟩).2
  obtain ⟨hpend, hread⟩ := hu
  rcases eq_or_eq_other n m with rfl | rfl
  · exact ⟨by simpa [pend_drain] using hpend, (readHctl_drain_self m u).trans hread⟩
  · rw [drain_of_nil hpend]; exact ⟨hpend, hread⟩

theorem read_own_write {n : Mnemonic} {s : State} (hn : Reaches n s.cfg s.ctx) (ho : pend (other n) s = [])
    (r u : RegNum) (ns : List Mnemonic) :
    ∃ t w, exec (writeBy n r) s = .next t ∧ exec (readBy n u) (drains ns t) = .next w
      ∧ XWritten u (storedValue s.cfg (readX r s)) (drains ns t) w := by
  have hread : readHctl n (drains ns (advance (writeHctl n (readX r s) s))) = storedValue s.cfg (readX r s) := by
    rw [readHctl_drains (by simpa [pend_advance, pend_writeHctl] using ho), readHctl_advance,
      readHctl_writeHctl]
  obtain ⟨w, hw, hxw⟩ := exists_read (by simpa using hn) u hread rfl
  exact ⟨_, w, exec_writeBy hn r, hw, hxw⟩

/-- Settles O22: `read_own_write` for the two names. -/
theorem sameMnemonicReadsOwnWrite : Obligations.SameMnemonicReadsOwnWrite := by
  intro s r u ns
  exact ⟨fun hel hK => read_own_write (n := .hctl) hel hK r u ns,
    fun hel he2h hH => read_own_write (n := .kctl) ⟨hel, he2h⟩ hH r u ns⟩

/-! Two names: a read sees the write by the other name once it is committed (R68, R69). -/

/-- After a write with nothing pending before it, that write is pending alone. -/
theorem onlyPending_write {n : Mnemonic} {s : State} (hn : pend n s = []) (ho : pend (other n) s = []) (v : Word) :
    OnlyPending n (storedValue s.cfg v) s.cnthctl (advance (writeHctl n v s)) :=
  ⟨by simp [pend_advance, pend_writeHctl, hn], by simp [pend_advance, pend_writeHctl, ho], by simp⟩

/-- Any drains leave the one write pending or commit it. -/
theorem onlyPending_or_settled_drains {n : Mnemonic} {v c : Word} {s : State} (h : OnlyPending n v c s)
    (ns : List Mnemonic) : OnlyPending n v c (drains ns s) ∨ Settled v (drains ns s) := by
  refine drains_keep (P := fun u => OnlyPending n v c u ∨ Settled v u) (fun m u hu => ?_) ns (.inl h)
  rcases hu with hpending | hsettled
  · rcases eq_or_eq_other n m with rfl | rfl
    · exact .inr hpending.settled_drain
    · exact .inl (hpending.drain_other.symm ▸ hpending)
  · exact .inr ((hsettled.drain_eq m).symm ▸ hsettled)

/-- Sync commits the one pending write. -/
theorem settled_synchronize {n : Mnemonic} {v c : Word} {s : State} (h : OnlyPending n v c s) :
    Settled v (synchronize s) := by
  obtain ⟨hH, hK, hdrained, -⟩ := synchronize_spec s
  exact ⟨fun m => by cases m <;> assumption, h.eq_of_drainedTo hdrained⟩

theorem readHctl_other_of_onlyPending {n : Mnemonic} {v c : Word} {s : State} (h : OnlyPending n v c s) :
    readHctl (other n) s = c := by
  obtain ⟨-, ho, hc⟩ := h
  rw [readHctl_of_nil ho, hc]

theorem readHctl_of_settled {v : Word} {s : State} (h : Settled v s) (n : Mnemonic) : readHctl n s = v := by
  rw [readHctl_of_nil (h.1 n), h.2]

/-- A write by one name, then a read by the other: old or new after any drains, old with none, new after the drain
of the write's name, and new after SYNC. -/
theorem read_other_after_write {n : Mnemonic} {s : State} (hn : Reaches n s.cfg s.ctx)
    (ho : Reaches (other n) s.cfg s.ctx) (hpn : pend n s = []) (hpo : pend (other n) s = []) (r u : RegNum) :
    ∃ t, exec (writeBy n r) s = .next t
      ∧ (∀ ns, ∃ w v, exec (readBy (other n) u) (drains ns t) = .next w ∧ XWritten u v (drains ns t) w
          ∧ (v = s.cnthctl ∨ v = storedValue s.cfg (readX r s)))
      ∧ (∃ w, exec (readBy (other n) u) t = .next w ∧ XWritten u s.cnthctl t w)
      ∧ (∃ w, exec (readBy (other n) u) (drains [n] t) = .next w
          ∧ XWritten u (storedValue s.cfg (readX r s)) t w)
      ∧ (∃ y w, exec .sync t = .next y ∧ exec (readBy (other n) u) y = .next w
          ∧ XWritten u (storedValue s.cfg (readX r s)) t w) := by
  have hwrite := exec_writeBy hn r
  have hpending := onlyPending_write hpn hpo (readX r s)
  have hreach : Reaches (other n) (advance (writeHctl n (readX r s) s)).cfg
      (advance (writeHctl n (readX r s) s)).ctx := by simpa using ho
  generalize advance (writeHctl n (readX r s) s) = t at hwrite hpending hreach
  refine ⟨t, hwrite, fun ns => ?_, ?_, ?_, ?_⟩
  · have hr : Reaches (other n) (drains ns t).cfg (drains ns t).ctx := by simpa using hreach
    obtain ⟨w, hw, hxw⟩ := exists_read hr u rfl rfl
    refine ⟨w, _, hw, hxw, ?_⟩
    rcases onlyPending_or_settled_drains hpending ns with h | h
    · exact .inl (readHctl_other_of_onlyPending h)
    · exact .inr (readHctl_of_settled h _)
  · exact exists_read hreach u (readHctl_other_of_onlyPending hpending) rfl
  · exact exists_read (by simpa using hreach) u (readHctl_of_settled hpending.settled_drain _) (drain_x n t)
  · have hread : readHctl (other n) (advance (synchronize t)) = storedValue s.cfg (readX r s) := by
      rw [readHctl_advance, readHctl_of_settled (settled_synchronize hpending)]
    obtain ⟨w, hw, hxw⟩ := exists_read (by simpa using hreach) u hread (synchronize_x t)
    exact ⟨_, w, exec_sync t, hw, hxw⟩

/-- Settles O23: `read_other_after_write` for a write by the name CNTKCTL_EL1. -/
theorem hctlReadAfterKctlWriteIsOldOrNew : Obligations.HctlReadAfterKctlWriteIsOldOrNew := by
  intro s r u hel he2h hH hK
  exact read_other_after_write (n := .kctl) ⟨hel, he2h⟩ (.inl hel) hK hH r u

/-- Settles O24: `read_other_after_write` for a write by the name CNTHCTL_EL2. -/
theorem kctlReadAfterHctlWriteIsOldOrNew : Obligations.KctlReadAfterHctlWriteIsOldOrNew := by
  intro s r u hel he2h hH hK
  exact read_other_after_write (n := .hctl) (.inl hel) ⟨hel, he2h⟩ hH hK r u

end Sys2Proof.Proofs.Litmus

namespace Sys2Proof.Proofs.Encoding

open Sys2Proof.Machine Sys2Proof.Proofs.DecodedStep
open Sys2Proof.Laws.EncodesItsTableRow (rowMatch)

/-! The decoder and the encoder are inverse to each other (R92). -/

theorem encode_accessorOf (n : SysregName) (r : Bool) (t : RegNum) :
    encode (accessorOf n r t) = accessWord r (sysregPoint n) t := by
  cases n <;> cases r <;> rfl

/-- An instruction is SYNC or the accessor of a register name and a direction (R84, R92). -/
theorem eq_sync_or_accessorOf (i : Instr) : i = .sync ∨ ∃ n r t, i = accessorOf n r t := by
  cases i with
  | mrsCnthctlEl2 t => exact .inr ⟨.cnthctlEl2, true, t, rfl⟩
  | msrCnthctlEl2 t => exact .inr ⟨.cnthctlEl2, false, t, rfl⟩
  | mrsCntkctlEl1 t => exact .inr ⟨.cntkctlEl1, true, t, rfl⟩
  | msrCntkctlEl1 t => exact .inr ⟨.cntkctlEl1, false, t, rfl⟩
  | sync => exact .inl rfl

@[simp] theorem wordPoint_accessWord_sysregPoint (r : Bool) (n : SysregName) (t : RegNum) :
    wordPoint (accessWord r (sysregPoint n) t) = sysregPoint n :=
  wordPoint_accessWord r _ t (by cases n <;> rfl)

theorem decode_accessWord (n : SysregName) (r : Bool) (t : RegNum) :
    decode (accessWord r (sysregPoint n) t) = .instr (accessorOf n r t) := by
  simp [decode, accessWord_ne_syncWord]

theorem decode_encode (i : Instr) : decode (encode i) = .instr i := by
  obtain rfl | ⟨n, r, t, rfl⟩ := eq_sync_or_accessorOf i
  · rfl
  · rw [encode_accessorOf, decode_accessWord]

theorem encode_of_decode {w : InstrWord} {i : Instr} (h : decode w = .instr i) : encode i = w := by
  obtain ⟨rfl, hd⟩ | ⟨n, r, t, rfl, hd⟩ | ⟨-, -, hd⟩ := decode_cases w <;> rw [hd] at h <;> cases h
  · rfl
  · exact encode_accessorOf n r t

theorem decode_eq_instr_iff {w : InstrWord} {i : Instr} : decode w = .instr i ↔ w = encode i :=
  ⟨fun h => (encode_of_decode h).symm, fun h => h ▸ decode_encode i⟩

/-- NotInScope carries the word that was decoded (R88). -/
theorem eq_of_decode_eq_notInScope {w u : InstrWord} (h : decode w = .notInScope u) : u = w := by
  obtain ⟨-, hd⟩ | ⟨_, _, _, -, hd⟩ | ⟨-, -, hd⟩ := decode_cases w <;> rw [hd] at h <;> cases h
  rfl

/-- Settles O3: each field of an encoded word is the field it was assembled from, and no accessor has SYNC's word. -/
theorem decodeOfEncode : Obligations.DecodeOfEncode :=
  fun i _ => decode_encode i

/-- Settles O4: the decoder answers an instruction for SYNC's word and for words assembled from their fields only. -/
theorem encodeOfDecode : Obligations.EncodeOfDecode :=
  fun _ _ => encode_of_decode

/-! Mask and match of the accessors' rows: a word is its bits under the row's mask and the operand below (R84). -/

theorem eq_masked_or_wordRt (w : InstrWord) : w = w &&& 0xFFFFFFE0#32 ||| (wordRt w).setWidth 32 := by
  apply BitVec.eq_of_getLsbD_eq
  intro i hi
  interval_cases i <;> simp [wordRt]

theorem eq_iff_masked_and_wordRt (w u : InstrWord) :
    w = u ↔ w &&& 0xFFFFFFE0#32 = u &&& 0xFFFFFFE0#32 ∧ wordRt w = wordRt u := by
  refine ⟨fun h => h ▸ ⟨rfl, rfl⟩, fun ⟨hmask, hrt⟩ => ?_⟩
  rw [eq_masked_or_wordRt w, hmask, hrt, ← eq_masked_or_wordRt u]

theorem wordRt_eq_iff (w : InstrWord) (t : RegNum) : wordRt w = t ↔ t.toNat = w.toNat % 32 := by
  rw [eq_comm, BitVec.toNat_eq]
  simp [wordRt]

theorem accessWord_masked (n : SysregName) (r : Bool) (t : RegNum) :
    accessWord r (sysregPoint n) t &&& 0xFFFFFFE0#32 = rowMatch (accessorOf n r t) := by
  rw [← encode_accessorOf]
  cases n <;> cases r
  · exact (Laws.EncodesItsTableRow.msrCnthctlEl2 t).1
  · exact (Laws.EncodesItsTableRow.mrsCnthctlEl2 t).1
  · exact (Laws.EncodesItsTableRow.msrCntkctlEl1 t).1
  · exact (Laws.EncodesItsTableRow.mrsCntkctlEl1 t).1

/-- A word decodes to an accessor exactly when it lies in the accessor's row and carries its operand (R92). -/
theorem decode_eq_accessorOf_iff (n : SysregName) (r : Bool) (w : InstrWord) (t : RegNum) :
    decode w = .instr (accessorOf n r t) ↔
      w &&& 0xFFFFFFE0#32 = rowMatch (accessorOf n r t) ∧ t.toNat = w.toNat % 32 := by
  rw [decode_eq_instr_iff, encode_accessorOf, eq_iff_masked_and_wordRt, accessWord_masked, wordRt_accessWord,
    wordRt_eq_iff]

/-- The encoder puts the operand in the low five bits of the row's match (R84, R92). -/
theorem encode_accessorOf_eq_or (n : SysregName) (r : Bool) (t : RegNum) :
    encode (accessorOf n r t) = rowMatch (accessorOf n r t) ||| t.setWidth 32 := by
  rw [encode_accessorOf, ← accessWord_masked]
  simpa using eq_masked_or_wordRt (accessWord r (sysregPoint n) t)

/-- Settles O2: `decode_eq_accessorOf_iff` and `encode_accessorOf_eq_or` read for each of the four rows. -/
theorem decoderContract : Obligations.DecoderContract :=
  ⟨decode_eq_accessorOf_iff .cnthctlEl2 true, decode_eq_accessorOf_iff .cnthctlEl2 false,
    decode_eq_accessorOf_iff .cntkctlEl1 true, decode_eq_accessorOf_iff .cntkctlEl1 false,
    fun _ => decode_eq_instr_iff, by decide, fun _ _ => eq_of_decode_eq_notInScope,
    fun t => ⟨encode_accessorOf_eq_or .cnthctlEl2 true t, encode_accessorOf_eq_or .cnthctlEl2 false t,
      encode_accessorOf_eq_or .cntkctlEl1 true t, encode_accessorOf_eq_or .cntkctlEl1 false t⟩⟩

/-! The words of no row (R88). -/

theorem rowMatch_accessorOf_mem (n : SysregName) (r : Bool) (t : RegNum) :
    rowMatch (accessorOf n r t) ∈ [0xD53CE100#32, 0xD51CE100#32, 0xD538E100#32, 0xD518E100#32] := by
  cases n <;> cases r <;> simp [accessorOf, rowMatch]

theorem peTurn_of_notInScope {s : State} {w u : InstrWord} (hw : WordAtPc s w) (hd : decode w = .notInScope u) :
    peTurn s = .refused (.notInScope u) := by
  simp [peTurn, fetch_of_wordAtPc hw, hd]

/-- Settles O5: a word that decodes to an accessor would match the accessor's row. -/
theorem wordsOutOfScopeRefused : Obligations.WordsOutOfScopeRefused := by
  intro w hrows hsync
  have hd : decode w = .notInScope w := by
    obtain ⟨hw, -⟩ | ⟨n, r, t, rfl, -⟩ | ⟨-, -, hd⟩ := decode_cases w
    · exact absurd hw hsync
    · rw [accessWord_masked] at hrows
      exact absurd (rowMatch_accessorOf_mem n r t) hrows
    · exact hd
  refine ⟨hd, fun s hpe hw => ?_⟩
  rw [step_of_peMoves hpe]
  exact peTurn_of_notInScope (s := takeTurn s) hw hd

/-- Settles O1: five of the words are encodings, and the decoder is run on their neighbour. -/
theorem decodeReadsSpecWords : Obligations.DecodeReadsSpecWords :=
  ⟨decode_encode (.mrsCnthctlEl2 5#5), decode_encode (.msrCnthctlEl2 31#5), decode_encode (.mrsCntkctlEl1 17#5),
    decode_encode (.msrCntkctlEl1 30#5), decode_encode .sync, by decide⟩

end Sys2Proof.Proofs.Encoding

namespace Sys2Proof.Proofs.Accessors

open Sys2Proof.Machine Sys2Proof.Proofs.Drains Sys2Proof.Proofs.Litmus Sys2Proof.Proofs.Encoding
open Sys2Proof.Laws.EncodesItsTableRow (rowMatch)

/-! The word of an accessor: its row's match with the operand in the low five bits (R84). -/

theorem decode_rowMatch_or_operand (n : SysregName) (d : Bool) (r : RegNum) :
    decode (rowMatch (accessorOf n d r) ||| r.setWidth 32) = .instr (accessorOf n d r) := by
  rw [← encode_accessorOf_eq_or, decode_encode]

/-! Completion: what a read, a write of the register and a write of the cell change, and what they leave. -/

theorem finishRead_sameSurroundings (r : RegNum) (v : Word) (s : State) :
    SameSurroundings s (finishRead r v s) := by
  simp [SameSurroundings]

theorem advance_writeHctl_sameSurroundings (n : Mnemonic) (v : Word) (s : State) :
    SameSurroundings s (advance (writeHctl n v s)) := by
  simp [SameSurroundings]

theorem advance_writeKctl_sameSurroundings (v : Word) (s : State) :
    SameSurroundings s (advance (writeKctl v s)) :=
  ⟨rfl, rfl, rfl, rfl, rfl, rfl, rfl⟩

theorem finishRead_sameHctl (r : RegNum) (v : Word) (s : State) : SameHctl s (finishRead r v s) := by
  simp [SameHctl]

/-- A read completed from `s` in `t`: X[r] takes `v`, pc advances, and nothing else changes (R106, R107, R109). -/
abbrev ReadDone (r : RegNum) (v : Word) (s t : State) : Prop :=
  XWritten r v s t ∧ PcAdvanced s t ∧ SameHctl s t ∧ t.cntkctl = s.cntkctl ∧ SameSurroundings s t

theorem finishRead_readDone (r : RegNum) (v : Word) (s : State) : ReadDone r v s (finishRead r v s) :=
  ⟨xWritten_finishRead r v s, pcAdvanced_of_pc (finishRead_pc r v s), finishRead_sameHctl r v s,
    finishRead_cntkctl r v s, finishRead_sameSurroundings r v s⟩

/-- A write by the name `n` completed from `s` in `t`: `v` AND StoredMask is pending last by `n`, pc advances, and
nothing else changes (R105, R106, R109). -/
abbrev WriteDone (n : Mnemonic) (v : Word) (s t : State) : Prop :=
  pend n t = pend n s ++ [storedValue s.cfg v] ∧ pend (other n) t = pend (other n) s ∧ t.cnthctl = s.cnthctl
    ∧ t.freeIndex = s.freeIndex ∧ t.x = s.x ∧ PcAdvanced s t ∧ t.cntkctl = s.cntkctl ∧ SameSurroundings s t

theorem advance_writeHctl_writeDone (n : Mnemonic) (v : Word) (s : State) :
    WriteDone n v s (advance (writeHctl n v s)) :=
  ⟨by simp [pend_advance, pend_writeHctl], by simp [pend_advance, pend_writeHctl], by simp, by simp, by simp,
    pcAdvanced_of_pc (by simp), by simp, advance_writeHctl_sameSurroundings n v s⟩

/-! The accessors of CNTKCTL_EL1 where they are not redirected (R102, R103). -/

/-- The name CNTKCTL_EL1 reaches the opaque cell: at EL1, at EL3, and at EL2 with E2H == 0. -/
def ReachesCell (c : Cfg) (x : Ctx) : Prop :=
  x.el = .el1 ∨ x.el = .el3 ∨ (x.el = .el2 ∧ e2h c x = false)

/-- Above EL0 the name CNTKCTL_EL1 reaches the cell or the register. -/
theorem reachesCell_or_reaches_of_ne_el0 {c : Cfg} {x : Ctx} (h : x.el ≠ .el0) :
    ReachesCell c x ∨ Reaches .kctl c x := by
  cases hel : x.el with
  | el0 => exact absurd hel h
  | el1 => exact .inl (.inl hel)
  | el3 => exact .inl (.inr (.inl hel))
  | el2 =>
    cases he2h : e2h c x with
    | false => exact .inl (.inr (.inr ⟨hel, he2h⟩))
    | true => exact .inr ⟨hel, he2h⟩

theorem accessCntkctl_of_reachesCell {c d s : State} (h : ReachesCell s.cfg s.ctx) :
    accessCntkctl c d s = .next c := by
  rcases h with hel | hel | ⟨hel, he2h⟩
  · simp [accessCntkctl, hel]
  · simp [accessCntkctl, hel]
  · simp [accessCntkctl, hel, he2h]

theorem exec_mrsCntkctl_of_reachesCell {s : State} (h : ReachesCell s.cfg s.ctx) (r : RegNum) :
    exec (.mrsCntkctlEl1 r) s = .next (finishRead r s.cntkctl s) :=
  accessCntkctl_of_reachesCell h

theorem exec_msrCntkctl_of_reachesCell {s : State} (h : ReachesCell s.cfg s.ctx) (r : RegNum) :
    exec (.msrCntkctlEl1 r) s = .next (advance (writeKctl (readX r s) s)) :=
  accessCntkctl_of_reachesCell h

/-! The raises (R181, R182): they do not depend on the direction of the accessor. -/

/-- Both accessors of CNTHCTL_EL2 make the tests of R100; they differ in the state of completion. -/
theorem exec_cnthctl_eq (d : Bool) (r : RegNum) (s : State) :
    ∃ done, exec (accessorOf .cnthctlEl2 d r) s = accessCnthctl (cnthctlSyndrome r d) done s := by
  cases d <;> exact ⟨_, rfl⟩

/-- Both accessors of CNTKCTL_EL1 make the tests of R102; they differ in the states of completion. -/
theorem exec_cntkctl_eq (d : Bool) (r : RegNum) (s : State) :
    ∃ cell redirected, exec (accessorOf .cntkctlEl1 d r) s = accessCntkctl cell redirected s := by
  cases d <;> exact ⟨_, _, rfl⟩

/-- The arms of the CNTHCTL_EL2 accessors that read UNDEFINED: EL0, and EL1 unless EL2Enabled() and NV (R181). -/
abbrev CnthctlUndefined (s : State) : Prop :=
  s.ctx.el = .el0 ∨ s.ctx.el = .el1 ∧ ¬(s.ctx.el2Enabled = true ∧ nv s.cfg s.ctx = true)

theorem exec_cnthctl_undefined {s : State} (h : CnthctlUndefined s) (d : Bool) (r : RegNum) :
    exec (accessorOf .cnthctlEl2 d r) s = .fault (.undefined s.pc (endOfRun s)) := by
  obtain ⟨done, heq⟩ := exec_cnthctl_eq d r s
  rw [heq]
  rcases h with hel | ⟨hel, htrap⟩
  · simp [accessCnthctl, raiseUndefined, hel]
  · simp [accessCnthctl, raiseUndefined, hel, htrap]

theorem exec_cnthctl_systemAccessTrap {s : State} (hel : s.ctx.el = .el1) (hen : s.ctx.el2Enabled = true)
    (hnv : nv s.cfg s.ctx = true) (d : Bool) (r : RegNum) :
    exec (accessorOf .cnthctlEl2 d r) s
      = .fault (.systemAccessTrap .el2 0x18#6 (cnthctlSyndrome r d) s.pc (endOfRun s)) := by
  obtain ⟨done, heq⟩ := exec_cnthctl_eq d r s
  rw [heq]
  simp [accessCnthctl, raiseSystemAccessTrap, hel, hen, hnv]

/-- At EL1 an accessor of CNTHCTL_EL2 raises, one way or the other. -/
theorem exec_cnthctl_raises_of_el1 {s : State} (hel : s.ctx.el = .el1) (d : Bool) (r : RegNum) :
    ∃ f, exec (accessorOf .cnthctlEl2 d r) s = .fault f := by
  by_cases htrap : s.ctx.el2Enabled = true ∧ nv s.cfg s.ctx = true
  · exact ⟨_, exec_cnthctl_systemAccessTrap hel htrap.1 htrap.2 d r⟩
  · exact ⟨_, exec_cnthctl_undefined (.inr ⟨hel, htrap⟩) d r⟩

/-- At EL0 every accessor is Undefined(). -/
theorem exec_accessor_undefined_of_el0 {i : Instr} {s : State} (hi : i ≠ .sync) (hel : s.ctx.el = .el0) :
    exec i s = .fault (.undefined s.pc (endOfRun s)) := by
  obtain rfl | ⟨n, d, r, rfl⟩ := eq_sync_or_accessorOf i
  · exact absurd rfl hi
  · cases n with
    | cnthctlEl2 => exact exec_cnthctl_undefined (.inl hel) d r
    | cntkctlEl1 =>
      obtain ⟨cell, redirected, heq⟩ := exec_cntkctl_eq d r s
      rw [heq]
      simp [accessCntkctl, raiseUndefined, hel]

/-! The four rules (R100 to R103), and the first of them after a reset. -/

/-- Settles O10: at EL2 and EL3 the read is `finishRead`, which `finishRead_readDone` describes; below it raises. -/
theorem mrsCnthctlDeliversRegister : Obligations.MrsCnthctlDeliversRegister := fun r s =>
  ⟨decode_rowMatch_or_operand .cnthctlEl2 true r,
    fun hel => ⟨_, exec_readBy (n := .hctl) hel r, finishRead_readDone r (readHctl .hctl s) s⟩,
    fun h => ⟨_, exec_cnthctl_undefined h true r, endOfRun_spec s⟩,
    fun hel hen hnv => ⟨_, _, exec_cnthctl_systemAccessTrap hel hen hnv true r, endOfRun_spec s⟩⟩

/-- Settles O11: at EL2 and EL3 the write is pending by its own name; below it raises. -/
theorem msrCnthctlAppendsWrite : Obligations.MsrCnthctlAppendsWrite := fun r s =>
  ⟨decode_rowMatch_or_operand .cnthctlEl2 false r,
    fun hel => ⟨_, exec_writeBy (n := .hctl) hel r, advance_writeHctl_writeDone .hctl (readX r s) s⟩,
    fun h => ⟨_, exec_cnthctl_undefined h false r, endOfRun_spec s⟩,
    fun hel hen hnv => ⟨_, _, exec_cnthctl_systemAccessTrap hel hen hnv false r, endOfRun_spec s⟩⟩

/-- Settles O12: both arms that complete are `finishRead`, of the cell and of what the name reads. -/
theorem mrsCntkctlDeliversCellOrRegister : Obligations.MrsCntkctlDeliversCellOrRegister := fun r s =>
  ⟨decode_rowMatch_or_operand .cntkctlEl1 true r,
    fun hcell => ⟨_, exec_mrsCntkctl_of_reachesCell hcell r, finishRead_readDone r s.cntkctl s⟩,
    fun hel he2h => ⟨_, exec_readBy (n := .kctl) ⟨hel, he2h⟩ r, finishRead_readDone r (readHctl .kctl s) s⟩,
    fun hel => ⟨_, exec_accessor_undefined_of_el0 (by simp) hel, endOfRun_spec s⟩⟩

/-- Settles O13: the write goes to the cell, or is pending by the name CNTKCTL_EL1. -/
theorem msrCntkctlWritesCellOrRegister : Obligations.MsrCntkctlWritesCellOrRegister := fun r s =>
  ⟨decode_rowMatch_or_operand .cntkctlEl1 false r,
    fun hcell => ⟨_, exec_msrCntkctl_of_reachesCell hcell r, rfl, rfl, pcAdvanced_of_pc rfl, ⟨rfl, rfl, rfl, rfl⟩,
      advance_writeKctl_sameSurroundings (readX r s) s⟩,
    fun hel he2h =>
      ⟨_, exec_writeBy (n := .kctl) ⟨hel, he2h⟩ r, advance_writeHctl_writeDone .kctl (readX r s) s⟩,
    fun hel => ⟨_, exec_accessor_undefined_of_el0 (by simp) hel, endOfRun_spec s⟩⟩

/-- Settles O55: reset leaves nothing pending, so the read delivers the committed value. -/
theorem firstReadAfterReset : Obligations.FirstReadAfterReset := fun c e r hel =>
  exists_read (n := .hctl) (s := resetState c e) hel r (readHctl_of_nil rfl) rfl

/-! Operand 31 (R107). -/

theorem finishRead_zr_x (v : Word) (s : State) : (finishRead 31#5 v s).x = s.x := by
  rw [finishRead_x, writeX_zr]

@[simp] theorem storedValue_zero (c : Cfg) : storedValue c 0#64 = 0#64 := BitVec.zero_and

/-- A write of operand 31 leaves zero pending last. -/
theorem pend_advance_writeHctl_zr (n : Mnemonic) (s : State) :
    pend n (advance (writeHctl n (readX 31#5 s) s)) = pend n s ++ [0#64] := by
  simp [pend_advance, pend_writeHctl]

/-- Settles O15: the level tests do not look at the operand; where they pass, it discards or supplies zero. -/
theorem operandThirtyOne : Obligations.OperandThirtyOne := by
  intro s
  refine ⟨fun i hi hel => ?_, fun i hi hel => ?_, fun hel => ⟨?_, ?_⟩, fun hel => ?_⟩
  · have hsync : i ≠ .sync := by rintro rfl; simp at hi
    exact ⟨_, exec_accessor_undefined_of_el0 hsync hel⟩
  · rcases List.mem_pair.mp hi with rfl | rfl
    · exact exec_cnthctl_raises_of_el1 hel true 31#5
    · exact exec_cnthctl_raises_of_el1 hel false 31#5
  · exact ⟨_, exec_readBy (n := .hctl) hel 31#5, finishRead_zr_x _ s⟩
  · exact ⟨_, exec_writeBy (n := .hctl) hel 31#5, pend_advance_writeHctl_zr .hctl s⟩
  · rcases reachesCell_or_reaches_of_ne_el0 hel with hcell | hreg
    · exact ⟨⟨_, exec_mrsCntkctl_of_reachesCell hcell 31#5, finishRead_zr_x _ s⟩,
        ⟨_, exec_msrCntkctl_of_reachesCell hcell 31#5, .inl (readX_zr s)⟩⟩
    · exact ⟨⟨_, exec_readBy hreg 31#5, finishRead_zr_x _ s⟩,
        ⟨_, exec_writeBy hreg 31#5, .inr (pend_advance_writeHctl_zr .kctl s)⟩⟩

/-! What no instruction does (R109): change its surroundings, or block. -/

theorem exec_sameSurroundings {i : Instr} {s t : State} (h : exec i s = .next t) : SameSurroundings s t := by
  rcases exec_next_cases h with ⟨r, -, -, rfl⟩ | ⟨r, -, -, rfl⟩ | ⟨r, -, -, -, rfl⟩ | ⟨r, -, -, rfl⟩
    | ⟨r, -, -, -, rfl⟩ | ⟨r, -, -, rfl⟩ | ⟨-, rfl⟩
  · exact finishRead_sameSurroundings r _ s
  · exact advance_writeHctl_sameSurroundings .hctl _ s
  · exact finishRead_sameSurroundings r _ s
  · exact finishRead_sameSurroundings r _ s
  · exact advance_writeHctl_sameSurroundings .kctl _ s
  · exact advance_writeKctl_sameSurroundings _ s
  · exact synchronize_sameSurroundings s

theorem accessCntkctl_not_refused {c d s : State} {r : Refusal} : accessCntkctl c d s ≠ .refused r := by
  by_cases hel : s.ctx.el = .el0
  · simp [accessCntkctl, raiseUndefined, hel]
  · rcases reachesCell_or_reaches_of_ne_el0 (c := s.cfg) hel with hcell | hreg
    · simp [accessCntkctl_of_reachesCell hcell]
    · simp [accessCntkctl_of_reaches hreg]

theorem exec_not_refused (i : Instr) (s : State) (r : Refusal) : exec i s ≠ .refused r := by
  cases i with
  | mrsCnthctlEl2 | msrCnthctlEl2 => exact accessCnthctl_not_refused
  | mrsCntkctlEl1 | msrCntkctlEl1 => exact accessCntkctl_not_refused
  | sync => exact nofun

theorem exec_completes_or_raises (i : Instr) (s : State) :
    (∃ t, exec i s = .next t) ∨ ∃ r, exec i s = .fault r := by
  cases h : exec i s with
  | next t => exact .inl ⟨t, rfl⟩
  | fault r => exact .inr ⟨r, rfl⟩
  | refused r => exact absurd h (exec_not_refused i s r)

/-- Settles O16: each way to complete keeps the surroundings, and no test answers a refusal. -/
theorem accessorsTouchNothingElse : Obligations.AccessorsTouchNothingElse := fun i s _ =>
  ⟨fun _ h => exec_sameSurroundings h, exec_completes_or_raises i s⟩

/-! The value a write stores (R105). -/

/-- The last value pending after a write by a name is the masked one, and alone it is what a drain commits. -/
theorem write_by_name_stores {n : Mnemonic} {s : State} (h : Reaches n s.cfg s.ctx) (r : RegNum) :
    ∃ t, exec (writeBy n r) s = .next t
      ∧ (pend n t).getLast? = some (storedValue s.cfg (readX r s))
      ∧ (pend n s = [] → (drain n t).cnthctl = storedValue s.cfg (readX r s)) := by
  obtain ⟨hpend, -⟩ := advance_writeHctl_writeDone n (readX r s) s
  refine ⟨_, exec_writeBy h r, by simp [hpend], fun hnil => ?_⟩
  rw [drain_cnthctl, hpend, hnil]
  rfl

/-- StoredMask holds every bit of a present field when EL2 is implemented (R25). -/
theorem bit_storedMask_of_covers {c : Cfg} {f : Field} {n : Nat} (h2 : c.haveEL2 = true)
    (h : Layouts.PresentFieldCovers c f n) : bit (storedMask c) n = true := by
  simp [storedMask, bit, h2, Layouts.fieldMask_of_covers h]

/-- Masking keeps the value of every present field. -/
theorem fieldValue_and_storedMask {c : Cfg} {f : Field} (h2 : c.haveEL2 = true) (hf : fieldPresent c f = true)
    (v : Word) : fieldValue f (v &&& storedMask c) = fieldValue f v := by
  refine IndirectReaders.fieldValue_congr fun i hi => ?_
  have hcovers : Layouts.PresentFieldCovers c f (fieldLo f + i) :=
    ⟨Layouts.mem_figure f, hf, Nat.le_add_right _ _, Nat.add_lt_add_left hi _⟩
  rw [bit_and, bit_storedMask_of_covers h2 hcovers, Bool.and_true]

/-- Settles O17: `write_by_name_stores` for the two names, and the mask keeps what the fields hold. -/
theorem writeStoresMaskedValue : Obligations.WriteStoresMaskedValue :=
  ⟨fun r _ hel => write_by_name_stores (n := .hctl) hel r,
    fun r _ hel he2h => write_by_name_stores (n := .kctl) ⟨hel, he2h⟩ r,
    fun _ _ v h2 hf => fieldValue_and_storedMask h2 hf v⟩

end Sys2Proof.Proofs.Accessors

namespace Sys2Proof.Proofs.WithoutEl2

open Sys2Proof.Machine Sys2Proof.Proofs.Invariant Sys2Proof.Proofs.Litmus Sys2Proof.Proofs.Accessors

/-! An implementation without EL2 (R104): EL2 is neither enabled nor entered, and the default mask stores nothing. -/

/-- Every control asks for EL2Enabled() (R120). -/
theorem fieldTraps_of_el2_not_enabled {x : Ctx} (h : x.el2Enabled = false) (f : Field) (c : Cfg) (v : Word)
    (a : Acc) : fieldTraps f c x v a = false := by
  cases f with
  | el1pten => simp [fieldTraps, trapsEl1pten, h]
  | l1El1pcten => simp [fieldTraps, trapsL1El1pcten, h]
  | el0pten => simp [fieldTraps, trapsEl0pten, h]
  | el0vten => simp [fieldTraps, trapsEl0vten, h]
  | el0vcten => simp [fieldTraps, trapsEl0vcten, h]
  | el0pcten => simp [fieldTraps, trapsEl0pcten, h]
  | el1pcen => simp [fieldTraps, trapsEl1pcen, h]
  | l2El1pcten => simp [fieldTraps, trapsL2El1pcten, h]
  | el1tvt => simp [fieldTraps, trapsEl1tvt, h]
  | el1tvct => simp [fieldTraps, trapsEl1tvct, h]
  | el1nvpct => simp [fieldTraps, trapsEl1nvpct, h]
  | el1nvvct => simp [fieldTraps, trapsEl1nvvct, h]
  | cntpmask | cntvmask | evntis | ecv | evnti | evntdir | evnten => rfl

theorem noEffect_of_el2_not_enabled {x : Ctx} (h : x.el2Enabled = false) (c : Cfg) (v : Word) :
    NoEffect c x v :=
  ⟨fun f a => fieldTraps_of_el2_not_enabled h f c v a, by simp [streamOn, h], by simp [maskP, h],
    by simp [maskV, h], by simp [ecvOn, h]⟩

/-- A context an environment can supply enables EL2 only where it is implemented (R15). -/
theorem el2_not_enabled_of_wellFormed {c : Cfg} {x : Ctx} (hx : x.wellFormed c = true) (h2 : c.haveEL2 = false) :
    x.el2Enabled = false := by
  simp only [Ctx.wellFormed, Ctx.el2EnabledOk, Bool.and_eq_true] at hx
  obtain ⟨⟨-, hen, -⟩, -⟩ := hx
  simpa [h2] using hen

/-- A context an environment can supply is at EL2 only where it is implemented (R5). -/
theorem el_ne_el2_of_wellFormed {c : Cfg} {x : Ctx} (hx : x.wellFormed c = true) (h2 : c.haveEL2 = false) :
    x.el ≠ .el2 := by
  intro hel
  simp [Ctx.wellFormed, Ctx.levelOk, hel, h2] at hx

theorem nv_of_no_el2 {c : Cfg} (h2 : c.haveEL2 = false) (x : Ctx) : nv c x = false := by
  simp [nv, h2]

/-- An accessor of CNTHCTL_EL2 that completes without EL2 is at EL3. -/
theorem el3_of_cnthctl_next {s t : State} (hx : s.ContextOk) (h2 : s.cfg.haveEL2 = false) {d : Bool} {r : RegNum}
    (h : exec (accessorOf .cnthctlEl2 d r) s = .next t) : s.ctx.el = .el3 := by
  obtain ⟨done, heq⟩ := exec_cnthctl_eq d r s
  obtain ⟨hel | hel, -⟩ := accessCnthctl_next (heq ▸ h)
  · exact absurd hel (el_ne_el2_of_wellFormed hx h2)
  · exact hel

/-- The default mask without EL2 (R25, R104). -/
theorem storedMask_of_no_el2 {c : Cfg} (h2 : c.haveEL2 = false) (hextra : c.extraStored = 0#64) :
    storedMask c = 0#64 := by
  simp [storedMask, h2, hextra]

/-- What a name reads is held, committed or pending (R67). -/
theorem readHctl_holds (n : Mnemonic) (s : State) : Holds s (readHctl n s) := by
  unfold readHctl
  cases h : (pend n s).getLast? with
  | none => exact .inl rfl
  | some v => exact .inr ⟨n, List.mem_of_getLast? h⟩

/-- Where the mask is zero, the invariant leaves the register nothing but zero to hold. -/
theorem eq_zero_of_holds {s : State} (hi : s.Inv) (hm : storedMask s.cfg = 0#64) {v : Word} (hv : Holds s v) :
    v = 0#64 := by
  have hstored : v &&& ~~~storedMask s.cfg = 0#64 := storedOnly_of_holds hi hv
  rwa [hm, BitVec.not_zero, BitVec.and_allOnes] at hstored

/-- A write stores nothing where the mask is zero. -/
theorem storedValue_of_mask_zero {c : Cfg} (hm : storedMask c = 0#64) (v : Word) : storedValue c v = 0#64 := by
  simp [storedValue, hm]

/-- Settles O21: without EL2 the context excludes EL2 and its enable, and the invariant with the default mask
excludes every held value but zero. -/
theorem resZeroWithoutEl2 : Obligations.ResZeroWithoutEl2 := by
  intro s r hi h2
  have ⟨_, _, hx⟩ := hi
  refine ⟨noEffect_of_el2_not_enabled (el2_not_enabled_of_wellFormed hx h2) _ _, fun t h => ?_, fun hel => ?_,
    fun hel hextra => ?_⟩
  · rcases h with h | h
    · exact el3_of_cnthctl_next (d := true) hx h2 h
    · exact el3_of_cnthctl_next (d := false) hx h2 h
  · have hundef : CnthctlUndefined s := .inr ⟨hel, by simp [nv_of_no_el2 h2]⟩
    exact ⟨_, _, exec_cnthctl_undefined hundef true r, exec_cnthctl_undefined hundef false r⟩
  · have hm := storedMask_of_no_el2 h2 hextra
    refine ⟨exists_read (n := .hctl) (.inr hel) r (eq_zero_of_holds hi hm (readHctl_holds .hctl s)) rfl,
      _, exec_writeBy (n := .hctl) (.inr hel) r, ?_, eq_zero_of_holds hi hm (.inl rfl)⟩
    obtain ⟨hpend, -⟩ := advance_writeHctl_writeDone .hctl (readX r s) s
    rwa [storedValue_of_mask_zero hm] at hpend

end Sys2Proof.Proofs.WithoutEl2

namespace Sys2Proof.Proofs.TrapConditions

open Sys2Proof.Machine Sys2Proof.Proofs.Layouts

/-! The predicate of each field as the conditions its rule lists (R123 to R135), in terms of field values. -/

theorem isPTimer_iff (r : TimerReg) : isPTimer r = true ↔ r ∈ [.cntpCtl, .cntpCval, .cntpTval] := by
  cases r <;> decide

theorem isVTimer_iff (r : TimerReg) : isVTimer r = true ↔ r ∈ [.cntvCtl, .cntvCval, .cntvTval] := by
  cases r <;> decide

theorem isEl02_of_mem {r : TimerReg}
    (h : r ∈ [.cntpCtlEl02, .cntpCvalEl02] ∨ r ∈ [.cntvCtlEl02, .cntvCvalEl02]) : isEl02 r = true := by
  rcases h with h | h <;> fin_cases h <;> rfl

theorem kTrap_eq_false_iff (x : Ctx) (a : Acc) : kTrap x a = false ↔ a ∉ x.kTraps := by
  simp [kTrap]

/-- UsesLayout1 asks for HaveE2H twice (R22). -/
theorem usesLayout1_eq_e2h (c : Cfg) (x : Ctx) : usesLayout1 c x = e2h c x := by
  cases h : c.haveE2H <;> simp [usesLayout1, e2h, h]

theorem layoutInForce_one_iff_e2h (c : Cfg) (x : Ctx) : layoutInForce c x = .one ↔ e2h c x = true := by
  rw [layoutInForce_eq_one_iff, usesLayout1_eq_e2h]

theorem layoutInForce_two_iff_e2h (c : Cfg) (x : Ctx) : layoutInForce c x = .two ↔ e2h c x = false := by
  rw [layoutInForce_eq_two_iff, usesLayout1_eq_e2h, Bool.not_eq_true]

/-- What the four EL0 controls of Layout 1 share (R125 to R128). -/
abbrev El0ControlsOn (c : Cfg) (x : Ctx) (a : Acc) : Prop :=
  layoutInForce c x = .one ∧ x.el2Enabled = true ∧ tge c x = true ∧ a.el = .el0

/-- What the two EL1 controls of Layout 1 share (R123, R124). -/
abbrev El1ControlsOn (c : Cfg) (x : Ctx) : Prop :=
  layoutInForce c x = .one ∧ x.el2Enabled = true ∧ tge c x = false

/-- What the four controls common to both layouts share (R132 to R135). -/
abbrev CommonControlsOn (c : Cfg) (x : Ctx) : Prop :=
  c.haveECV = true ∧ x.el2Enabled = true ∧ (e2h c x = false ∨ tge c x = false)

/-- What the two NV controls ask of HCR_EL2 beside that (R134). -/
abbrev Nested (c : Cfg) (x : Ctx) : Prop := nv2 c x = true ∧ nv1 c x = false ∧ nv c x = true

section
variable {c : Cfg} {x : Ctx} {v : Word} {a : Acc}

theorem fieldTraps_el1pten_iff : fieldTraps .el1pten c x v a = true ↔
    El1ControlsOn c x ∧ fieldValue .el1pten v = 0 ∧ a.reg ∈ [.cntpCtl, .cntpCval, .cntpTval] ∧ a ∉ x.kTraps := by
  simp only [fieldTraps, trapsEl1pten, Bool.and_eq_true, Bool.not_eq_true', isPTimer_iff, kTrap_eq_false_iff,
    layoutInForce_eq_one_iff, fieldValue_eq_zero_iff (f := .el1pten) rfl, fieldLo, and_assoc]

theorem fieldTraps_l1El1pcten_iff : fieldTraps .l1El1pcten c x v a = true ↔
    El1ControlsOn c x ∧ fieldValue .l1El1pcten v = 0 ∧ a.reg = .cntpct ∧ a ∉ x.kTraps := by
  simp only [fieldTraps, trapsL1El1pcten, Bool.and_eq_true, Bool.not_eq_true', beq_iff_eq, kTrap_eq_false_iff,
    layoutInForce_eq_one_iff, fieldValue_eq_zero_iff (f := .l1El1pcten) rfl, fieldLo, and_assoc]

theorem fieldTraps_el0pten_iff : fieldTraps .el0pten c x v a = true ↔
    El0ControlsOn c x a ∧ fieldValue .el0pten v = 0 ∧ a.reg ∈ [.cntpCtl, .cntpCval, .cntpTval] := by
  simp only [fieldTraps, trapsEl0pten, El0ControlsOn, Bool.and_eq_true, Bool.not_eq_true', beq_iff_eq, isPTimer_iff,
    layoutInForce_eq_one_iff, fieldValue_eq_zero_iff (f := .el0pten) rfl, fieldLo]
  tauto

theorem fieldTraps_el0vten_iff : fieldTraps .el0vten c x v a = true ↔
    El0ControlsOn c x a ∧ fieldValue .el0vten v = 0 ∧ a.reg ∈ [.cntvCtl, .cntvCval, .cntvTval] := by
  simp only [fieldTraps, trapsEl0vten, El0ControlsOn, Bool.and_eq_true, Bool.not_eq_true', beq_iff_eq, isVTimer_iff,
    layoutInForce_eq_one_iff, fieldValue_eq_zero_iff (f := .el0vten) rfl, fieldLo]
  tauto

theorem fieldTraps_el0vcten_iff : fieldTraps .el0vcten c x v a = true ↔
    El0ControlsOn c x a ∧ fieldValue .el0vcten v = 0
      ∧ (a.reg = .cntvct ∨ a.reg = .cntfrq ∧ fieldValue .el0pcten v = 0) := by
  simp only [fieldTraps, trapsEl0vcten, El0ControlsOn, Bool.and_eq_true, Bool.or_eq_true, Bool.not_eq_true', beq_iff_eq,
    layoutInForce_eq_one_iff, fieldValue_eq_zero_iff (f := .el0vcten) rfl,
    fieldValue_eq_zero_iff (f := .el0pcten) rfl, fieldLo]
  tauto

theorem fieldTraps_el0pcten_iff : fieldTraps .el0pcten c x v a = true ↔
    El0ControlsOn c x a ∧ fieldValue .el0pcten v = 0
      ∧ (a.reg = .cntpct ∨ a.reg = .cntfrq ∧ fieldValue .el0vcten v = 0) := by
  simp only [fieldTraps, trapsEl0pcten, El0ControlsOn, Bool.and_eq_true, Bool.or_eq_true, Bool.not_eq_true', beq_iff_eq,
    layoutInForce_eq_one_iff, fieldValue_eq_zero_iff (f := .el0vcten) rfl,
    fieldValue_eq_zero_iff (f := .el0pcten) rfl, fieldLo]
  tauto

theorem fieldTraps_el1pcen_iff : fieldTraps .el1pcen c x v a = true ↔
    layoutInForce c x = .two ∧ x.el2Enabled = true ∧ fieldValue .el1pcen v = 0
      ∧ a.reg ∈ [.cntpCtl, .cntpCval, .cntpTval] ∧ a ∉ x.kTraps := by
  simp only [fieldTraps, trapsEl1pcen, usesLayout2, Bool.and_eq_true, Bool.not_eq_true', isPTimer_iff,
    kTrap_eq_false_iff, layoutInForce_eq_two_iff, Bool.not_eq_true, fieldValue_eq_zero_iff (f := .el1pcen) rfl,
    fieldLo, and_assoc]

theorem fieldTraps_l2El1pcten_iff : fieldTraps .l2El1pcten c x v a = true ↔
    layoutInForce c x = .two ∧ x.el2Enabled = true ∧ fieldValue .l2El1pcten v = 0
      ∧ a.reg = .cntpct ∧ a ∉ x.kTraps := by
  simp only [fieldTraps, trapsL2El1pcten, usesLayout2, Bool.and_eq_true, Bool.not_eq_true', beq_iff_eq,
    kTrap_eq_false_iff, layoutInForce_eq_two_iff, Bool.not_eq_true,
    fieldValue_eq_zero_iff (f := .l2El1pcten) rfl, fieldLo, and_assoc]

theorem fieldTraps_el1tvt_iff : fieldTraps .el1tvt c x v a = true ↔
    CommonControlsOn c x ∧ fieldValue .el1tvt v = 1 ∧ a.reg ∈ [.cntvCtl, .cntvCval, .cntvTval]
      ∧ a ∉ x.kTraps := by
  simp only [fieldTraps, trapsEl1tvt, Bool.and_eq_true, Bool.or_eq_true, Bool.not_eq_true', isVTimer_iff,
    kTrap_eq_false_iff, fieldValue_eq_one_iff (f := .el1tvt) rfl, fieldLo]
  tauto

theorem fieldTraps_el1tvct_iff : fieldTraps .el1tvct c x v a = true ↔
    CommonControlsOn c x ∧ fieldValue .el1tvct v = 1 ∧ a.reg = .cntvct ∧ a ∉ x.kTraps := by
  simp only [fieldTraps, trapsEl1tvct, Bool.and_eq_true, Bool.or_eq_true, Bool.not_eq_true', beq_iff_eq,
    kTrap_eq_false_iff, fieldValue_eq_one_iff (f := .el1tvct) rfl, fieldLo]
  tauto

theorem nvCond_iff : nvCond c x = true ↔ (e2h c x = false ∨ tge c x = false) ∧ Nested c x := by
  simp only [nvCond, Bool.and_eq_true, Bool.or_eq_true, Bool.not_eq_true', and_assoc]

theorem fieldTraps_el1nvpct_iff : fieldTraps .el1nvpct c x v a = true ↔
    CommonControlsOn c x ∧ Nested c x ∧ fieldValue .el1nvpct v = 1 ∧ a.el = .el1
      ∧ a.reg ∈ [.cntpCtlEl02, .cntpCvalEl02] := by
  simp only [fieldTraps, trapsEl1nvpct, Bool.and_eq_true, Bool.or_eq_true, beq_iff_eq, nvCond_iff,
    List.mem_cons, List.not_mem_nil, or_false, fieldValue_eq_one_iff (f := .el1nvpct) rfl, fieldLo]
  tauto

theorem fieldTraps_el1nvvct_iff : fieldTraps .el1nvvct c x v a = true ↔
    CommonControlsOn c x ∧ Nested c x ∧ fieldValue .el1nvvct v = 1 ∧ a.el = .el1
      ∧ a.reg ∈ [.cntvCtlEl02, .cntvCvalEl02] := by
  simp only [fieldTraps, trapsEl1nvvct, Bool.and_eq_true, Bool.or_eq_true, beq_iff_eq, nvCond_iff,
    List.mem_cons, List.not_mem_nil, or_false, fieldValue_eq_one_iff (f := .el1nvvct) rfl, fieldLo]
  tauto

/-! Which values of E2H and TGE the shared conditions stand for. -/

theorem El0ControlsOn.e2h_tge {a : Acc} (h : El0ControlsOn c x a) : e2h c x = true ∧ tge c x = true := by
  obtain ⟨hone, -, htge, -⟩ := h
  exact ⟨(layoutInForce_one_iff_e2h c x).mp hone, htge⟩

theorem El1ControlsOn.e2h_tge (h : El1ControlsOn c x) : e2h c x = true ∧ tge c x = false := by
  obtain ⟨hone, -, htge⟩ := h
  exact ⟨(layoutInForce_one_iff_e2h c x).mp hone, htge⟩

theorem CommonControlsOn.e2h_and_tge (h : CommonControlsOn c x) : (e2h c x && tge c x) = false := by
  obtain ⟨-, -, hguest⟩ := h
  exact Bool.and_eq_false_iff.mpr hguest

end

end Sys2Proof.Proofs.TrapConditions

namespace Sys2Proof.Proofs.ApplicableControl

open Sys2Proof.Machine Sys2Proof.Proofs.TrapConditions

/-! The one control that can apply to an access (R137). -/

/-- The control of a register: HCR_EL2.E2H and TGE select it. Of the two on CNTFRQ it is the one the trap reports
(R136). -/
def controlOf (c : Cfg) (x : Ctx) : TimerReg → Field
  | .cntfrq => .el0vcten
  | .cntpct => if e2h c x then if tge c x then .el0pcten else .l1El1pcten else .l2El1pcten
  | .cntvct => if e2h c x && tge c x then .el0vcten else .el1tvct
  | .cntpCtl | .cntpCval | .cntpTval => if e2h c x then if tge c x then .el0pten else .el1pten else .el1pcen
  | .cntvCtl | .cntvCval | .cntvTval => if e2h c x && tge c x then .el0vten else .el1tvt
  | .cntpCtlEl02 | .cntpCvalEl02 => .el1nvpct
  | .cntvCtlEl02 | .cntvCvalEl02 => .el1nvvct

section
variable {c : Cfg} {x : Ctx}

theorem controlOf_pTimer {r : TimerReg} (h : r ∈ [.cntpCtl, .cntpCval, .cntpTval]) :
    controlOf c x r = if e2h c x then if tge c x then .el0pten else .el1pten else .el1pcen := by
  fin_cases h <;> rfl

theorem controlOf_vTimer {r : TimerReg} (h : r ∈ [.cntvCtl, .cntvCval, .cntvTval]) :
    controlOf c x r = if e2h c x && tge c x then .el0vten else .el1tvt := by
  fin_cases h <;> rfl

theorem controlOf_pEl02 {r : TimerReg} (h : r ∈ [.cntpCtlEl02, .cntpCvalEl02]) : controlOf c x r = .el1nvpct := by
  fin_cases h <;> rfl

theorem controlOf_vEl02 {r : TimerReg} (h : r ∈ [.cntvCtlEl02, .cntvCvalEl02]) : controlOf c x r = .el1nvvct := by
  fin_cases h <;> rfl

/-- No control of another register, level or layout applies (R137). -/
theorem eq_controlOf_of_fieldTraps {f : Field} {v : Word} {a : Acc} (h : fieldTraps f c x v a = true) :
    f = controlOf c x a.reg ∨ (a.reg = .cntfrq ∧ f = .el0pcten) := by
  cases f with
  | el1pten =>
    obtain ⟨hon, -, hreg, -⟩ := fieldTraps_el1pten_iff.mp h
    exact .inl (by simp [controlOf_pTimer hreg, hon.e2h_tge])
  | l1El1pcten =>
    obtain ⟨hon, -, hreg, -⟩ := fieldTraps_l1El1pcten_iff.mp h
    exact .inl (by simp [hreg, controlOf, hon.e2h_tge])
  | el0pten =>
    obtain ⟨hon, -, hreg⟩ := fieldTraps_el0pten_iff.mp h
    exact .inl (by simp [controlOf_pTimer hreg, hon.e2h_tge])
  | el0vten =>
    obtain ⟨hon, -, hreg⟩ := fieldTraps_el0vten_iff.mp h
    exact .inl (by simp [controlOf_vTimer hreg, hon.e2h_tge])
  | el0vcten =>
    obtain ⟨hon, -, hreg | ⟨hreg, -⟩⟩ := fieldTraps_el0vcten_iff.mp h
    · exact .inl (by simp [hreg, controlOf, hon.e2h_tge])
    · exact .inl (by simp [hreg, controlOf])
  | el0pcten =>
    obtain ⟨hon, -, hreg | ⟨hreg, -⟩⟩ := fieldTraps_el0pcten_iff.mp h
    · exact .inl (by simp [hreg, controlOf, hon.e2h_tge])
    · exact .inr ⟨hreg, rfl⟩
  | el1pcen =>
    obtain ⟨htwo, -, -, hreg, -⟩ := fieldTraps_el1pcen_iff.mp h
    exact .inl (by simp [controlOf_pTimer hreg, (layoutInForce_two_iff_e2h c x).mp htwo])
  | l2El1pcten =>
    obtain ⟨htwo, -, -, hreg, -⟩ := fieldTraps_l2El1pcten_iff.mp h
    exact .inl (by simp [hreg, controlOf, (layoutInForce_two_iff_e2h c x).mp htwo])
  | el1tvt =>
    obtain ⟨hon, -, hreg, -⟩ := fieldTraps_el1tvt_iff.mp h
    exact .inl (by rw [controlOf_vTimer hreg, hon.e2h_and_tge]; rfl)
  | el1tvct =>
    obtain ⟨hon, -, hreg, -⟩ := fieldTraps_el1tvct_iff.mp h
    exact .inl (by rw [hreg, controlOf, hon.e2h_and_tge]; rfl)
  | el1nvpct =>
    obtain ⟨-, -, -, -, hreg⟩ := fieldTraps_el1nvpct_iff.mp h
    exact .inl (controlOf_pEl02 hreg).symm
  | el1nvvct =>
    obtain ⟨-, -, -, -, hreg⟩ := fieldTraps_el1nvvct_iff.mp h
    exact .inl (controlOf_vEl02 hreg).symm
  | cntpmask | cntvmask | evntis | ecv | evnti | evntdir | evnten => cases h

end

/-- Settles O42: a field whose predicate holds is the register's one control, or the second one of CNTFRQ. -/
theorem atMostOneControlApplies : Obligations.AtMostOneControlApplies := by
  intro c x v a f g hf hg
  rcases eq_controlOf_of_fieldTraps hf with hf | ⟨hfrq, hf⟩ <;>
    rcases eq_controlOf_of_fieldTraps hg with hg | ⟨hfrq', hg⟩
  · exact .inl (hf.trans hg.symm)
  · exact .inr ⟨hfrq', .inl ⟨by rw [hf, hfrq']; rfl, hg⟩⟩
  · exact .inr ⟨hfrq, .inr ⟨hf, by rw [hg, hfrq]; rfl⟩⟩
  · exact .inl (hf.trans hg.symm)

/-- On CNTFRQ the two controls that can apply have one condition between them (R129). -/
theorem fieldTraps_cntfrq_iff {c : Cfg} {x : Ctx} {v : Word} {a : Acc} (hreg : a.reg = .cntfrq) {f : Field} :
    fieldTraps f c x v a = true ↔ (f = .el0vcten ∨ f = .el0pcten)
      ∧ El0ControlsOn c x a ∧ fieldValue .el0vcten v = 0 ∧ fieldValue .el0pcten v = 0 := by
  have hvcten : fieldTraps .el0vcten c x v a = true ↔
      El0ControlsOn c x a ∧ fieldValue .el0vcten v = 0 ∧ fieldValue .el0pcten v = 0 := by
    simp [fieldTraps_el0vcten_iff, hreg]
  have hpcten : fieldTraps .el0pcten c x v a = true ↔
      El0ControlsOn c x a ∧ fieldValue .el0vcten v = 0 ∧ fieldValue .el0pcten v = 0 := by
    simp only [fieldTraps_el0pcten_iff, hreg]; tauto
  constructor
  · intro h
    rcases eq_controlOf_of_fieldTraps h with hf | ⟨-, rfl⟩
    · rw [hreg, controlOf] at hf
      subst hf
      exact ⟨.inl rfl, hvcten.mp h⟩
    · exact ⟨.inr rfl, hpcten.mp h⟩
  · rintro ⟨rfl | rfl, hcond⟩
    · exact hvcten.mpr hcond
    · exact hpcten.mpr hcond

end Sys2Proof.Proofs.ApplicableControl

namespace Sys2Proof.Proofs.Verdicts

open Sys2Proof.Machine Sys2Proof.Proofs.Turns Sys2Proof.Proofs.TrapConditions Sys2Proof.Proofs.ApplicableControl
open Sys2Proof.Proofs.WithoutEl2

/-! The verdict on an access (R136). -/

section
variable {c : Cfg} {x : Ctx} {v : Word} {a : Acc}

/-- The controls asked before KTrap apply where KTrap is never true (R122). -/
theorem kTrap_excluded_of_before {f : Field} (hf : f ∈ controlsBeforeKTrap) (h : fieldTraps f c x v a = true) :
    (e2h c x && tge c x) = true ∨ isEl02 a.reg = true := by
  simp only [controlsBeforeKTrap, List.mem_cons, List.not_mem_nil, or_false] at hf
  rcases hf with rfl | rfl | rfl | rfl | rfl | rfl
  · obtain ⟨hon, -⟩ := fieldTraps_el0pten_iff.mp h
    exact .inl (by simp [hon.e2h_tge])
  · obtain ⟨hon, -⟩ := fieldTraps_el0vten_iff.mp h
    exact .inl (by simp [hon.e2h_tge])
  · obtain ⟨hon, -⟩ := fieldTraps_el0vcten_iff.mp h
    exact .inl (by simp [hon.e2h_tge])
  · obtain ⟨hon, -⟩ := fieldTraps_el0pcten_iff.mp h
    exact .inl (by simp [hon.e2h_tge])
  · obtain ⟨-, -, -, -, hreg⟩ := fieldTraps_el1nvpct_iff.mp h
    exact .inr (isEl02_of_mem (.inl hreg))
  · obtain ⟨-, -, -, -, hreg⟩ := fieldTraps_el1nvvct_iff.mp h
    exact .inr (isEl02_of_mem (.inr hreg))

/-- The controls asked after KTrap give way to it (R122). -/
theorem not_kTrap_of_after {f : Field} (hf : f ∈ controlsAfterKTrap) (h : fieldTraps f c x v a = true) :
    a ∉ x.kTraps := by
  simp only [controlsAfterKTrap, List.mem_cons, List.not_mem_nil, or_false] at hf
  rcases hf with rfl | rfl | rfl | rfl | rfl | rfl
  · obtain ⟨-, -, -, hk⟩ := fieldTraps_el1pten_iff.mp h; exact hk
  · obtain ⟨-, -, -, hk⟩ := fieldTraps_l1El1pcten_iff.mp h; exact hk
  · obtain ⟨-, -, -, -, hk⟩ := fieldTraps_el1pcen_iff.mp h; exact hk
  · obtain ⟨-, -, -, -, hk⟩ := fieldTraps_l2El1pcten_iff.mp h; exact hk
  · obtain ⟨-, -, -, hk⟩ := fieldTraps_el1tvt_iff.mp h; exact hk
  · obtain ⟨-, -, -, hk⟩ := fieldTraps_el1tvct_iff.mp h; exact hk

/-- What the environment may not supply as KTrap (R122, D15). -/
theorem not_excluded_of_kTrap (hx : x.wellFormed c = true) (hk : a ∈ x.kTraps) :
    (e2h c x && tge c x) = false ∧ isEl02 a.reg = false := by
  simp only [Ctx.wellFormed, Bool.and_eq_true] at hx
  obtain ⟨-, hks⟩ := hx
  simpa only [Bool.and_eq_true, Bool.not_eq_true'] using List.all_eq_true.mp hks a hk

/-- Where the environment supplies KTrap, this register traps nothing. -/
theorem fieldTraps_of_kTrap (hx : x.wellFormed c = true) (hk : a ∈ x.kTraps) (f : Field) :
    fieldTraps f c x v a = false := by
  rw [← Bool.not_eq_true]
  intro h
  obtain ⟨hguest, hreg⟩ := not_excluded_of_kTrap hx hk
  rcases mem_controls_or_inert f c x v a with hf | hf | hno
  · rcases kTrap_excluded_of_before hf h with hhost | hel02
    · exact Bool.false_ne_true (hguest.symm.trans hhost)
    · exact Bool.false_ne_true (hreg.symm.trans hel02)
  · exact not_kTrap_of_after hf h hk
  · simp [h] at hno

/-- No trap is lost to KTrap (R136). -/
theorem exists_toEL2_iff : (∃ f, trapVerdict c x v a = .toEL2 f) ↔ ∃ f, fieldTraps f c x v a = true := by
  refine ⟨fun ⟨f, hf⟩ => ⟨f, fieldTraps_of_trapVerdict hf⟩, fun ⟨f, h⟩ => ?_⟩
  rcases trapVerdict_cases c x v a with ⟨g, hg, -⟩ | ⟨-, hk, hbefore⟩ | ⟨-, -, hno⟩
  · exact ⟨g, hg⟩
  · rcases mem_controls_or_inert f c x v a with hf | hf | hno
    · simp [hbefore f hf] at h
    · exact absurd (by simpa [kTrap] using hk) (not_kTrap_of_after hf h)
    · simp [hno] at h
  · simp [hno f] at h

/-- Of the two controls on CNTFRQ the verdict names EL0VCTEN (R136, R137). -/
theorem trapVerdict_ne_el0pcten_of_cntfrq (hreg : a.reg = .cntfrq) : trapVerdict c x v a ≠ .toEL2 .el0pcten := by
  intro hv
  obtain ⟨-, hcond⟩ := (fieldTraps_cntfrq_iff hreg).mp (fieldTraps_of_trapVerdict hv)
  have hvcten : fieldTraps .el0vcten c x v a = true := (fieldTraps_cntfrq_iff hreg).mpr ⟨.inl rfl, hcond⟩
  have hpten : fieldTraps .el0pten c x v a = false := by
    simp [← Bool.not_eq_true, fieldTraps_cntfrq_iff hreg]
  have hvten : fieldTraps .el0vten c x v a = false := by
    simp [← Bool.not_eq_true, fieldTraps_cntfrq_iff hreg]
  simp [trapVerdict, controlsBeforeKTrap, hpten, hvten, hvcten] at hv

/-- The verdict names the field whose predicate holds; that one is unique but on CNTFRQ (R136, R137). -/
theorem trapVerdict_eq_toEL2_iff {f : Field} :
    trapVerdict c x v a = .toEL2 f ↔ fieldTraps f c x v a = true ∧ ¬ (a.reg = .cntfrq ∧ f = .el0pcten) := by
  constructor
  · intro hv
    refine ⟨fieldTraps_of_trapVerdict hv, ?_⟩
    rintro ⟨hreg, rfl⟩
    exact trapVerdict_ne_el0pcten_of_cntfrq hreg hv
  · rintro ⟨h, hfirst⟩
    obtain ⟨g, hg⟩ := exists_toEL2_iff.mpr ⟨f, h⟩
    rcases atMostOneControlApplies c x v a f g h (fieldTraps_of_trapVerdict hg) with
      rfl | ⟨hreg, ⟨-, rfl⟩ | ⟨hf, -⟩⟩
    · exact hg
    · exact absurd hg (trapVerdict_ne_el0pcten_of_cntfrq hreg)
    · exact absurd ⟨hreg, hf⟩ hfirst

end

/-- Settles O41: no field traps such an access, so KTrap alone gives the verdict. -/
theorem kernelControlTrapWins : Obligations.KernelControlTrapWins := by
  intro c x v a hx hk
  rw [trapVerdict_of_no_field (fieldTraps_of_kTrap hx hk), if_pos hk]

/-- Settles O43: the condition that the two controls of CNTFRQ have between them, bit by bit. -/
theorem frequencyRegisterTrappedExactly : Obligations.FrequencyRegisterTrappedExactly := by
  intro c x v a hreg
  refine ⟨?_, exists_toEL2_iff⟩
  simp only [fieldTraps_cntfrq_iff hreg, fieldValue_eq_zero_iff (f := .el0vcten) rfl,
    fieldValue_eq_zero_iff (f := .el0pcten) rfl, fieldLo, bit, El0ControlsOn]
  constructor
  · rintro ⟨-, -, ⟨hone, hen, htge, hel⟩, h1, h0⟩
    exact ⟨hel, hone, hen, htge, h1, h0⟩
  · rintro ⟨hel, hone, hen, htge, h1, h0⟩
    exact ⟨_, .inl rfl, ⟨hone, hen, htge, hel⟩, h1, h0⟩

end Sys2Proof.Proofs.Verdicts

namespace Sys2Proof.Proofs.StoppedAccess

open Sys2Proof.Machine Sys2Proof.Proofs.Turns Sys2Proof.Proofs.TrapConditions Sys2Proof.Proofs.Verdicts
open Sys2Proof.Proofs.WithoutEl2

/-! The step of an access: it faults exactly with the verdict ToEL2 (R136, R183). -/

section
variable {s : State} {a : Acc}

theorem step_of_toEL2 (hnext : AccessNext a s) {f : Field}
    (hv : trapVerdict s.cfg s.ctx s.cnthctl a = .toEL2 f) : step s = raiseFieldTrap f a (takeTurn s) := by
  rw [step_of_accessNext hnext]
  simp [accessTurn, takeTurn, hnext.2, hv]

theorem toEL2_of_step_fault (hnext : AccessNext a s) {r : Fault} (h : step s = .fault r) :
    ∃ f, trapVerdict s.cfg s.ctx s.cnthctl a = .toEL2 f
      ∧ r = .fieldTrap .el2 a (Config.trapEC a) f (endOfRun (takeTurn s)) := by
  rw [step_of_accessNext hnext] at h
  rcases accessTurn_cases a (takeTurn s) with ⟨-, hturn⟩ | ⟨-, ⟨f, hv, hturn⟩ | ⟨_, -, -, hturn⟩⟩ <;>
    rw [hturn] at h <;> cases h
  exact ⟨f, hv, rfl⟩

theorem trappedBy_iff_toEL2 (hnext : AccessNext a s) {f : Field} :
    TrappedBy f a s ↔ trapVerdict s.cfg s.ctx s.cnthctl a = .toEL2 f := by
  constructor
  · rintro ⟨fin, hfin⟩
    obtain ⟨g, hv, hfault⟩ := toEL2_of_step_fault hnext hfin
    cases hfault
    exact hv
  · exact fun hv => ⟨_, step_of_toEL2 hnext hv⟩

/-- A field stops the access exactly when its predicate holds; EL0PCTEN leaves CNTFRQ to EL0VCTEN (R137). -/
theorem trappedBy_iff (hnext : AccessNext a s) {f : Field} :
    TrappedBy f a s ↔ fieldTraps f s.cfg s.ctx s.cnthctl a = true ∧ ¬ (a.reg = .cntfrq ∧ f = .el0pcten) :=
  (trappedBy_iff_toEL2 hnext).trans trapVerdict_eq_toEL2_iff

theorem trappedBy_iff_of_ne (hnext : AccessNext a s) {f : Field} (hf : f ≠ .el0pcten) :
    TrappedBy f a s ↔ fieldTraps f s.cfg s.ctx s.cnthctl a = true := by
  simp [trappedBy_iff hnext, hf]

theorem trappedBy_el0pcten_iff (hnext : AccessNext a s) :
    TrappedBy .el0pcten a s ↔
      El0ControlsOn s.cfg s.ctx a ∧ fieldValue .el0pcten s.cnthctl = 0 ∧ a.reg = .cntpct := by
  rw [trappedBy_iff hnext, fieldTraps_el0pcten_iff]
  constructor
  · rintro ⟨⟨hon, hzero, hreg | ⟨hreg, -⟩⟩, hnot⟩
    · exact ⟨hon, hzero, hreg⟩
    · exact absurd ⟨hreg, rfl⟩ hnot
  · rintro ⟨hon, hzero, hreg⟩
    exact ⟨⟨hon, hzero, .inl hreg⟩, by simp [hreg]⟩

/-- Every control asks for EL2, so none stops an access without it (R138). -/
theorem not_trappedBy_of_no_el2 (hnext : AccessNext a s) (hx : s.ContextOk) (h2 : s.cfg.haveEL2 = false)
    (f : Field) : ¬ TrappedBy f a s := by
  simp [trappedBy_iff hnext, fieldTraps_of_el2_not_enabled (el2_not_enabled_of_wellFormed hx h2)]

end

/-- Settles O39: a fault is the trap of the verdict's field, and ends in the state before the access. -/
theorem accessTrappedIffSomeFieldTraps : Obligations.AccessTrappedIffSomeFieldTraps := by
  intro s a hnext
  refine ⟨?_, fun r hr => ?_⟩
  · rw [← exists_toEL2_iff]
    constructor
    · rintro ⟨r, hr⟩
      obtain ⟨f, hv, -⟩ := toEL2_of_step_fault hnext hr
      exact ⟨f, hv⟩
    · rintro ⟨f, hv⟩
      exact ⟨_, step_of_toEL2 hnext hv⟩
  · obtain ⟨f, hv, rfl⟩ := toEL2_of_step_fault hnext hr
    exact ⟨f, _, rfl, fieldTraps_of_trapVerdict hv, endOfRun_spec (takeTurn s)⟩

/-- Settles O35: the two predicates, in the step of the access. -/
theorem layoutOneEl1ControlsTrap : Obligations.LayoutOneEl1ControlsTrap := by
  intro s a hnext
  rw [trappedBy_iff_of_ne hnext (by decide), trappedBy_iff_of_ne hnext (by decide), fieldTraps_el1pten_iff,
    fieldTraps_l1El1pcten_iff]
  exact ⟨by simp only [and_assoc], by simp only [and_assoc]⟩

/-- Settles O36: the four predicates, in the step of the access; on CNTFRQ the last gives way to the one before. -/
theorem layoutOneEl0ControlsTrap : Obligations.LayoutOneEl0ControlsTrap := fun _ _ hnext =>
  ⟨(trappedBy_iff_of_ne hnext (by decide)).trans fieldTraps_el0pten_iff,
    (trappedBy_iff_of_ne hnext (by decide)).trans fieldTraps_el0vten_iff,
    (trappedBy_iff_of_ne hnext (by decide)).trans fieldTraps_el0vcten_iff,
    fieldTraps_el0pcten_iff,
    trappedBy_el0pcten_iff hnext⟩

/-- Settles O37: the two predicates, in the step of the access; without EL2 no field stops it. -/
theorem layoutTwoControlsTrap : Obligations.LayoutTwoControlsTrap := fun _ _ hnext =>
  ⟨(trappedBy_iff_of_ne hnext (by decide)).trans fieldTraps_el1pcen_iff,
    (trappedBy_iff_of_ne hnext (by decide)).trans fieldTraps_l2El1pcten_iff,
    fun hx _ h2 => ⟨not_trappedBy_of_no_el2 hnext hx h2 _, not_trappedBy_of_no_el2 hnext hx h2 _⟩⟩

/-- Settles O38: the four predicates, in the step of the access; without EL2 no field stops it. -/
theorem commonControlsTrap : Obligations.CommonControlsTrap := fun _ _ hnext =>
  ⟨(trappedBy_iff_of_ne hnext (by decide)).trans fieldTraps_el1tvt_iff,
    (trappedBy_iff_of_ne hnext (by decide)).trans fieldTraps_el1tvct_iff,
    (trappedBy_iff_of_ne hnext (by decide)).trans fieldTraps_el1nvpct_iff,
    (trappedBy_iff_of_ne hnext (by decide)).trans fieldTraps_el1nvvct_iff,
    fun hx _ h2 => ⟨not_trappedBy_of_no_el2 hnext hx h2 _, not_trappedBy_of_no_el2 hnext hx h2 _,
      not_trappedBy_of_no_el2 hnext hx h2 _, not_trappedBy_of_no_el2 hnext hx h2 _⟩⟩

end Sys2Proof.Proofs.StoppedAccess

namespace Sys2Proof.Proofs.ControlsWithoutEffect

open Sys2Proof.Machine Sys2Proof.Proofs.TrapConditions Sys2Proof.Proofs.WithoutEl2

/-! What the trap controls do not look at, and where they do nothing. -/

/-- Settles O44: every reader asks for EL2Enabled(), which an environment supplies only with EL2. -/
theorem noEffectUnlessEl2Enabled : Obligations.NoEffectUnlessEl2Enabled := fun c _ v =>
  ⟨fun hoff => noEffect_of_el2_not_enabled hoff c v,
    fun hx h2 => noEffect_of_el2_not_enabled (el2_not_enabled_of_wellFormed hx h2) c v⟩

/-- The predicates read the register through the values of its fields, and none of them that of ECV (R139). -/
theorem fieldTraps_congr_of_fieldValue {v w : Word} (h : ∀ g ≠ Field.ecv, fieldValue g v = fieldValue g w)
    (f : Field) (c : Cfg) (x : Ctx) (a : Acc) : fieldTraps f c x v a = fieldTraps f c x w a := by
  rw [Bool.eq_iff_iff]
  cases f with
  | el1pten => simp [fieldTraps_el1pten_iff, h]
  | l1El1pcten => simp [fieldTraps_l1El1pcten_iff, h]
  | el0pten => simp [fieldTraps_el0pten_iff, h]
  | el0vten => simp [fieldTraps_el0vten_iff, h]
  | el0vcten => simp [fieldTraps_el0vcten_iff, h]
  | el0pcten => simp [fieldTraps_el0pcten_iff, h]
  | el1pcen => simp [fieldTraps_el1pcen_iff, h]
  | l2El1pcten => simp [fieldTraps_l2El1pcten_iff, h]
  | el1tvt => simp [fieldTraps_el1tvt_iff, h]
  | el1tvct => simp [fieldTraps_el1tvct_iff, h]
  | el1nvpct => simp [fieldTraps_el1nvpct_iff, h]
  | el1nvvct => simp [fieldTraps_el1nvvct_iff, h]
  | cntpmask | cntvmask | evntis | ecv | evnti | evntdir | evnten => rfl

theorem bit_xor_ecv {n : Nat} (hn : n ≠ 12) (v : Word) : bit (v ^^^ 0x1000#64) n = bit v n := by
  have hmask : 0x1000#64 = BitVec.twoPow 64 12 := by decide
  simp [bit, hmask, BitVec.getLsbD_twoPow, hn.symm]

/-- Bit [12] is a bit of ECV and of no other field (R34). -/
theorem fieldValue_xor_ecv {f : Field} (hf : f ≠ .ecv) (v : Word) :
    fieldValue f (v ^^^ 0x1000#64) = fieldValue f v := by
  have hcovers : ∀ i < fieldWidth f, fieldLo f + i ≠ 12 := by
    cases f with
    | ecv => exact absurd rfl hf
    | _ => decide
  exact IndirectReaders.fieldValue_congr fun i hi => bit_xor_ecv (hcovers i hi) v

theorem trigIdx_xor_ecv (c : Cfg) (v : Word) : trigIdx c (v ^^^ 0x1000#64) = trigIdx c v := by
  rw [trigIdx, trigIdx, fieldValue_xor_ecv (by decide), bit_xor_ecv (by decide)]

/-- The common controls exist with FEAT_ECV only (R139). -/
theorem fieldTraps_of_no_ecv {c : Cfg} (hE : c.haveECV = false) {f : Field}
    (hf : f ∈ [Field.el1tvt, .el1tvct, .el1nvpct, .el1nvvct]) (x : Ctx) (v : Word) (a : Acc) :
    fieldTraps f c x v a = false := by
  have hoff : ¬ CommonControlsOn c x := fun ⟨hE', _⟩ => by simp [hE] at hE'
  rw [← Bool.not_eq_true]
  intro h
  fin_cases hf
  · obtain ⟨hon, -⟩ := fieldTraps_el1tvt_iff.mp h; exact hoff hon
  · obtain ⟨hon, -⟩ := fieldTraps_el1tvct_iff.mp h; exact hoff hon
  · obtain ⟨hon, -⟩ := fieldTraps_el1nvpct_iff.mp h; exact hoff hon
  · obtain ⟨hon, -⟩ := fieldTraps_el1nvvct_iff.mp h; exact hoff hon

/-- Settles O45: inverting bit [12] keeps the value of every field but ECV, and no predicate reads that one. -/
theorem ecvBitTrapsNothing : Obligations.EcvBitTrapsNothing := fun c x v =>
  ⟨fun f a => fieldTraps_congr_of_fieldValue (fun _ hg => fieldValue_xor_ecv hg v) f c x a,
    trigIdx_xor_ecv c v,
    fun hE a _ hf => fieldTraps_of_no_ecv hE hf x v a⟩

end Sys2Proof.Proofs.ControlsWithoutEffect

namespace Sys2Proof.Proofs.CounterUpdates

open Sys2Proof.Machine Sys2Proof.Proofs.DecodedStep

/-! One counter update: the conditions of the event in terms of the fields (R160 to R162), and the step (R163). -/

theorem streamOn_iff (x : Ctx) (v : Word) :
    streamOn x v = true ↔ x.el2Enabled = true ∧ fieldValue .evnten v = 1 := by
  simp [streamOn, fieldValue_eq_one_iff (f := .evnten) rfl, fieldLo]

theorem trigIdx_eq (c : Cfg) (v : Word) :
    trigIdx c v = fieldValue .evnti v + (if c.haveECV = true ∧ fieldValue .evntis v = 1 then 8 else 0) := by
  simp [trigIdx, fieldValue_eq_one_iff (f := .evntis) rfl, fieldLo]

/-- The selected transition leaves the value EVNTDIR holds: 0 to 1 with EVNTDIR == 0, 1 to 0 with EVNTDIR == 1
(R162). -/
theorem fires_iff_leaves_evntdir (v : Word) (old new : Bool) :
    fires v old new = true ↔ old = bit v 3 ∧ new = !bit v 3 := by
  cases hdir : bit v 3 <;> simp [fires, hdir]

theorem fires_iff (v : Word) (old new : Bool) :
    fires v old new = true ↔ fieldValue .evntdir v = 0 ∧ (old = false ∧ new = true)
      ∨ fieldValue .evntdir v = 1 ∧ (old = true ∧ new = false) := by
  rw [fires_iff_leaves_evntdir, fieldValue_eq_zero_iff rfl, fieldValue_eq_one_iff rfl, fieldLo]
  cases bit v 3 <;> simp

theorem eventAt_iff (c : Cfg) (x : Ctx) (v p q : Word) :
    eventAt c x v p q = true ↔ streamOn x v = true ∧ fires v (bit p (trigIdx c v)) (bit q (trigIdx c v)) = true :=
  Bool.and_eq_true_iff

theorem step_of_counter {s : State} {q : Word} {rest : List Turn} (h : s.agenda = .env (.counter q) :: rest) :
    step s = .next (counterUpdate q { s with agenda := rest }) := by
  rw [Turns.step_of_env h, takeTurn_of_cons h]
  rfl

/-- With a previous counter value, the update looks at the transition from it to the new one (R163). -/
theorem step_of_counter_of_prev {s : State} {p q : Word} {rest : List Turn}
    (h : s.agenda = .env (.counter q) :: rest) (hp : s.cPrev = some p) :
    step s = .next { s with
      agenda := rest
      cPrev := some q
      outputs := if eventAt s.cfg s.ctx s.cnthctl p q then s.outputs ++ [.event] else s.outputs } := by
  simp only [step_of_counter h, counterUpdate_spec, hp]

/-- Settles O46: the step is the counter update, and its test for an event is the statement's, field by field. -/
theorem counterUpdateEmitsSelectedTransition : Obligations.CounterUpdateEmitsSelectedTransition := by
  intro s p q rest hagenda hprev
  rw [step_of_counter_of_prev hagenda hprev]
  simp only [eventAt_iff, streamOn_iff, fires_iff, trigIdx_eq, and_assoc]
  rfl

end Sys2Proof.Proofs.CounterUpdates

namespace Sys2Proof.Proofs.EventPeriod

open Sys2Proof.Machine Sys2Proof.Proofs.CounterUpdates

/-! A bit of a number that counts up: bit `k` flips at the multiples of 2^k, and so takes each of its two values once
in a period of 2^(k+1). -/

theorem testBit_succ_of_dvd {k m : Nat} (h : 2 ^ k ∣ m + 1) : (m + 1).testBit k = !m.testBit k := by
  rw [Nat.testBit_eq_decide_div_mod_eq, Nat.testBit_eq_decide_div_mod_eq, Nat.succ_div_of_dvd h]
  rcases Nat.mod_two_eq_zero_or_one (m / 2 ^ k) with hpar | hpar <;> simp [Nat.add_mod, hpar]

theorem testBit_succ_of_not_dvd {k m : Nat} (h : ¬ 2 ^ k ∣ m + 1) : (m + 1).testBit k = m.testBit k := by
  rw [Nat.testBit_eq_decide_div_mod_eq, Nat.testBit_eq_decide_div_mod_eq, Nat.succ_div_of_not_dvd h]

/-- The place in the period 2^(k+1) at which bit `k` leaves the value `b`. -/
def leavingPhase (b : Bool) (k : Nat) : Nat := if b then 0 else 2 ^ k

theorem modEq_leavingPhase_iff (b : Bool) (k n : Nat) :
    n ≡ leavingPhase b k [MOD 2 ^ (k + 1)] ↔ 2 ^ k ∣ n ∧ n.testBit k = !b := by
  have hpos : 0 < 2 ^ k := Nat.two_pow_pos k
  have hphase : leavingPhase b k % 2 ^ (k + 1) = leavingPhase b k :=
    Nat.mod_eq_of_lt (by unfold leavingPhase; split <;> omega)
  have hrem : n % 2 ^ k ≠ 2 ^ k := (Nat.mod_lt n hpos).ne
  rw [Nat.ModEq, hphase, Nat.mod_pow_succ, Nat.dvd_iff_mod_eq_zero, Nat.testBit_eq_decide_div_mod_eq]
  rcases Nat.mod_two_eq_zero_or_one (n / 2 ^ k) with hpar | hpar <;>
    cases b <;> simp [leavingPhase, hpar, hrem]

theorem testBit_leaves_iff (b : Bool) (k m : Nat) :
    (m.testBit k = b ∧ (m + 1).testBit k = !b) ↔ m + 1 ≡ leavingPhase b k [MOD 2 ^ (k + 1)] := by
  rw [modEq_leavingPhase_iff]
  by_cases hdvd : 2 ^ k ∣ m + 1
  · simp [testBit_succ_of_dvd hdvd, hdvd]
  · simp [testBit_succ_of_not_dvd hdvd, hdvd]

/-- Each residue is met once in a period, from any start. -/
theorem count_modEq_period {P : Nat} (hP : 0 < P) (a v : Nat) : Nat.count (fun j => a + j ≡ v [MOD P]) P = 1 := by
  have hsplit := Nat.count_add (· ≡ v [MOD P]) a P
  have hperiod : (a + P) / P = a / P + 1 := Nat.add_div_right a hP
  simp only [Nat.count_modEq_card _ hP, hperiod, Nat.add_mod_right] at hsplit
  omega

/-! The counter is that number, cut to 64 bits: the trigger bit does not see the wrap. -/

theorem bit_add_ofNat {k : Nat} (hk : k < 64) (p : Word) (j : Nat) :
    bit (p + BitVec.ofNat 64 j) k = (p.toNat + j).testBit k := by
  rw [bit, ← BitVec.testBit_toNat, BitVec.toNat_add, BitVec.toNat_ofNat, Nat.add_mod_mod, Nat.testBit_mod_two_pow]
  simp [hk]

/-- With the stream on, the increments that emit an Event are those to one residue of the period. -/
theorem eventAt_increment_iff {c : Cfg} {x : Ctx} {v : Word} (hon : streamOn x v = true) (p : Word) (j : Nat) :
    eventAt c x v (p + BitVec.ofNat 64 j) (p + BitVec.ofNat 64 (j + 1)) = true
      ↔ p.toNat + 1 + j ≡ leavingPhase (bit v 3) (trigIdx c v) [MOD 2 ^ (trigIdx c v + 1)] := by
  have hk : trigIdx c v < 64 := (trigIdx_lt c v).trans (by decide)
  rw [eventAt_iff, fires_iff_leaves_evntdir, bit_add_ofNat hk, bit_add_ofNat hk, ← Nat.add_assoc,
    testBit_leaves_iff, Nat.add_right_comm]
  exact and_iff_right hon

/-! A run of counter updates. -/

/-- The number of events of `n` updates through the counter values `f 0`, `f 1`, ..., `f n` (R163). -/
def eventCount (c : Cfg) (x : Ctx) (v : Word) (f : Nat → Word) (n : Nat) : Nat :=
  Nat.count (fun j => eventAt c x v (f j) (f (j + 1)) = true) n

theorem eventCount_succ (c : Cfg) (x : Ctx) (v : Word) (f : Nat → Word) (n : Nat) :
    eventCount c x v f (n + 1)
      = (if eventAt c x v (f 0) (f 1) = true then 1 else 0) + eventCount c x v (fun j => f (j + 1)) n := by
  rw [eventCount, Nat.count_succ', Nat.add_comm]
  rfl

theorem eventCount_period {c : Cfg} {x : Ctx} {v : Word} (hon : streamOn x v = true) (p : Word) :
    eventCount c x v (fun j => p + BitVec.ofNat 64 j) (2 ^ (trigIdx c v + 1)) = 1 := by
  simp only [eventCount, eventAt_increment_iff hon]
  exact count_modEq_period (Nat.two_pow_pos _) _ _

/-- The turns that supply the counter values `f 1`, ..., `f n`. -/
def counterTurns (f : Nat → Word) (n : Nat) : List Turn := (List.range n).map fun j => .env (.counter (f (j + 1)))

theorem counterTurns_succ (f : Nat → Word) (n : Nat) :
    counterTurns f (n + 1) = .env (.counter (f 1)) :: counterTurns (fun j => f (j + 1)) n := by
  simp [counterTurns, List.range_succ_eq_map, Function.comp_def]

/-- A run of counter updates outputs their events, and changes nothing else but c_prev. -/
theorem run_counterTurns (f : Nat → Word) (n : Nat) (s : State) (hprev : s.cPrev = some (f 0))
    (hagenda : s.agenda = counterTurns f n) :
    Host.Core.run core n s = .next { s with
      agenda := []
      cPrev := some (f n)
      outputs := s.outputs ++ List.replicate (eventCount s.cfg s.ctx s.cnthctl f n) .event } := by
  induction n generalizing f s with
  | zero =>
    have hnil : s.agenda = [] := hagenda
    simp [Host.Core.run, eventCount, ← hprev, ← hnil]
  | succ n ih =>
    rw [counterTurns_succ] at hagenda
    rw [Drains.run_succ_of_next (step_of_counter_of_prev hagenda hprev), ih (fun j => f (j + 1)) _ rfl rfl,
      eventCount_succ]
    by_cases hevent : eventAt s.cfg s.ctx s.cnthctl (f 0) (f 1) = true <;> simp [hevent, List.replicate_add]

/-- Settles O48: the run outputs as many events as the increments of one period have, and that is one. -/
theorem oneEventPerPeriod : Obligations.OneEventPerPeriod := by
  intro s p hprev hon period hagenda
  have hzero : s.cPrev = some (p + BitVec.ofNat 64 0) := by simpa using hprev
  rw [run_counterTurns (fun j => p + BitVec.ofNat 64 j) period s hzero hagenda, eventCount_period hon]
  rfl

end Sys2Proof.Proofs.EventPeriod

namespace Sys2Proof.Proofs.Outputs

open Sys2Proof.Machine Sys2Proof.Proofs.Accessors

/-! What a turn appends to the outputs (R57, R169). -/

/-- From `s` to `t` outputs have only been appended, and among those appended is no Event. -/
def EmitsNoEvent (s t : State) : Prop :=
  s.outputs <+: t.outputs ∧ t.outputs.count .event = s.outputs.count .event

theorem emitsNoEvent_of_outputs_eq {s t : State} (h : t.outputs = s.outputs) : EmitsNoEvent s t := by
  rw [EmitsNoEvent, h]
  exact ⟨List.prefix_rfl, rfl⟩

theorem emit_verdict_emitsNoEvent (a : Acc) (v : Verdict) (s : State) : EmitsNoEvent s (emit (.verdict a v) s) := by
  rw [EmitsNoEvent, emit_outputs]
  exact ⟨List.prefix_append _ _, by simp⟩

theorem emitsNoEvent_takeTurn {s t : State} : EmitsNoEvent (takeTurn s) t ↔ EmitsNoEvent s t := Iff.rfl

theorem counterUpdate_outputs_prefix (q : Word) (s : State) : s.outputs <+: (counterUpdate q s).outputs := by
  rw [counterUpdate_spec]
  cases s.cPrev with
  | none => exact List.prefix_rfl
  | some p =>
    dsimp only
    split
    · exact List.prefix_append _ _
    · exact List.prefix_rfl

theorem resetInto_outputs (e : ResetEnv) (s : State) : (resetInto e s).outputs = s.outputs := rfl

/-- No instruction outputs anything (R109, R69). -/
theorem peTurn_emitsNoEvent {s t : State} (h : peTurn s = .next t) : EmitsNoEvent s t := by
  obtain ⟨_, _, -, -, hexec⟩ := peTurn_next h
  obtain ⟨-, -, -, -, -, -, houtputs⟩ := exec_sameSurroundings hexec
  exact emitsNoEvent_of_outputs_eq houtputs

/-- Of the turns of the other agents only a counter update can output an Event (R163, R188). -/
theorem environmentTurn_emitsNoEvent {i : Input} {s t : State} (h : environmentTurn i s = .next t) :
    (∃ q, i = .counter q ∧ t = counterUpdate q s) ∨ EmitsNoEvent s t := by
  rcases environmentTurn_next h with hcounter | ⟨y, -, -, rfl⟩ | ⟨a, v, -, rfl⟩ | ⟨n, -, rfl⟩ | ⟨e, -, -, rfl⟩
  · exact .inl hcounter
  · exact .inr (emitsNoEvent_of_outputs_eq (changeContext_outputs y s))
  · exact .inr (emit_verdict_emitsNoEvent a v s)
  · exact .inr (emitsNoEvent_of_outputs_eq (drain_outputs n s))
  · exact .inr (emitsNoEvent_of_outputs_eq (resetInto_outputs e s))

theorem step_emitsNoEvent {s t : State} (h : step s = .next t) :
    (∃ q rest, s.agenda = .env (.counter q) :: rest ∧ t = counterUpdate q (takeTurn s)) ∨ EmitsNoEvent s t := by
  rcases step_cases s with ⟨-, hstep⟩ | ⟨i, rest, hagenda, hstep⟩ <;> rw [hstep] at h
  · exact .inr (emitsNoEvent_takeTurn.mp (peTurn_emitsNoEvent h))
  · rcases environmentTurn_emitsNoEvent h with ⟨q, rfl, ht⟩ | hno
    · exact .inl ⟨q, rest, hagenda, ht⟩
    · exact .inr (emitsNoEvent_takeTurn.mp hno)

/-- Settles O49: a step is a counter update, which appends, or it appends no Event. -/
theorem onlyCounterUpdatesEmitEvents : Obligations.OnlyCounterUpdatesEmitEvents := by
  intro s t h
  rcases step_emitsNoEvent h with ⟨q, rest, hagenda, rfl⟩ | ⟨hprefix, hcount⟩
  · exact ⟨counterUpdate_outputs_prefix q (takeTurn s), fun _ => ⟨q, rest, hagenda⟩⟩
  · exact ⟨hprefix, fun hne => absurd hcount hne⟩

end Sys2Proof.Proofs.Outputs

namespace Sys2Proof.Proofs.TimerMasks

open Sys2Proof.Machine Sys2Proof.Proofs.Litmus Sys2Proof.Proofs.Accessors

/-! The mask overrides and the ECV enable (R164 to R168), and what reads neither E2H nor the Security state. -/

theorem maskP_iff (c : Cfg) (x : Ctx) (v : Word) :
    maskP c x v = true ↔ c.haveMaskBits = true ∧ x.el2Enabled = true ∧ x.security = .other
      ∧ fieldValue .cntpmask v = 1 := by
  simp [maskP, fieldValue_eq_one_iff (f := .cntpmask) rfl, fieldLo, and_assoc]

theorem maskV_iff (c : Cfg) (x : Ctx) (v : Word) :
    maskV c x v = true ↔ c.haveMaskBits = true ∧ x.el2Enabled = true ∧ x.security = .other
      ∧ fieldValue .cntvmask v = 1 := by
  simp [maskV, fieldValue_eq_one_iff (f := .cntvmask) rfl, fieldLo, and_assoc]

/-- Settles O50: the effective mask is the override or the stored bit; the direct read is the stored bit. -/
theorem maskOverrideSetsEffectiveMask : Obligations.MaskOverrideSetsEffectiveMask := fun s =>
  ⟨by rw [effImaskP, Bool.or_eq_true, maskP_iff, or_comm],
    by rw [effImaskV, Bool.or_eq_true, maskV_iff, or_comm], rfl, rfl⟩

theorem ecvOn_iff (c : Cfg) (x : Ctx) (v : Word) :
    ecvOn c x v = true ↔ c.haveECV = true ∧ fieldValue .ecv v = 1 ∧ x.el2Enabled = true
      ∧ (x.scrNS = true ∨ x.scrEEL2 = true) ∧ (e2h c x = false ∨ tge c x = false) := by
  simp [ecvOn, fieldValue_eq_one_iff (f := .ecv) rfl, fieldLo, and_assoc]

/-- Settles O52: the enable of the committed value. -/
theorem ecvEnabledExactly : Obligations.EcvEnabledExactly := fun s => ecvOn_iff s.cfg s.ctx s.cnthctl

/-- Settles O53: neither the event nor an override has E2H among what it reads. -/
theorem layoutChangeLeavesStreamAndMasks : Obligations.LayoutChangeLeavesStreamAndMasks :=
  fun _ _ _ _ _ _ => ⟨rfl, rfl, rfl⟩

theorem masks_off_of_security {x : Ctx} (h : x.security ≠ .other) (c : Cfg) (v : Word) :
    maskP c x v = false ∧ maskV c x v = false := by
  simp [maskP, maskV, h]

/-- The same state in the Security state `z`. -/
def inSecurity (z : SecurityState) (s : State) : State := { s with ctx := { s.ctx with security := z } }

/-! The states of completion of the accessors: their updates and `inSecurity` write different fields. -/

theorem finishRead_inSecurity (z : SecurityState) (r : RegNum) (v : Word) (s : State) :
    finishRead r v (inSecurity z s) = inSecurity z (finishRead r v s) := by
  unfold finishRead writeX
  split <;> rfl

theorem advance_writeHctl_inSecurity (z : SecurityState) (n : Mnemonic) (v : Word) (s : State) :
    advance (writeHctl n v (inSecurity z s)) = inSecurity z (advance (writeHctl n v s)) := by
  cases n <;> rfl

/-! The tests of the accessors do not read the Security state. -/

theorem accessCnthctl_inSecurity (z : SecurityState) {y : Syndrome} {d s t : State}
    (h : accessCnthctl y d s = .next t) :
    accessCnthctl y (inSecurity z d) (inSecurity z s) = .next (inSecurity z t) := by
  obtain ⟨hel, rfl⟩ := accessCnthctl_next h
  exact accessCnthctl_of_reaches hel

theorem accessCntkctl_inSecurity (z : SecurityState) {c d s t : State} (h : accessCntkctl c d s = .next t) :
    accessCntkctl (inSecurity z c) (inSecurity z d) (inSecurity z s) = .next (inSecurity z t) := by
  rcases accessCntkctl_next h with ⟨rfl, hreaches⟩ | ⟨rfl, hcell⟩
  · exact accessCntkctl_of_reaches hreaches
  · exact accessCntkctl_of_reachesCell hcell

theorem exec_accessor_inSecurity (z : SecurityState) {i : Instr} {s t : State} (hi : i ≠ .sync)
    (h : exec i s = .next t) : exec i (inSecurity z s) = .next (inSecurity z t) := by
  cases i with
  | mrsCnthctlEl2 r =>
    have hz := accessCnthctl_inSecurity z h
    rwa [← finishRead_inSecurity] at hz
  | msrCnthctlEl2 r => exact accessCnthctl_inSecurity z h
  | mrsCntkctlEl1 r =>
    have hz := accessCntkctl_inSecurity z h
    rwa [← finishRead_inSecurity, ← finishRead_inSecurity] at hz
  | msrCntkctlEl1 r => exact accessCntkctl_inSecurity z h
  | sync => exact absurd rfl hi

/-- Settles O51: the overrides test the Security state, the accessors do not. -/
theorem securityStateRemovesEffectNotStorage : Obligations.SecurityStateRemovesEffectNotStorage :=
  ⟨fun c _ v h => masks_off_of_security h c v, fun z _ _ _ hi h => exec_accessor_inSecurity z hi h⟩

end Sys2Proof.Proofs.TimerMasks

namespace Sys2Proof.Proofs.Raises

open Sys2Proof.Machine Sys2Proof.Proofs.Encoding Sys2Proof.Proofs.Accessors

/-! What an instruction raises, exactly (R181, R182), and the state a raise ends the run in (R185, R186). -/

/-- `i` is one of the two accessors of CNTHCTL_EL2. -/
abbrev AccessesCnthctl (i : Instr) : Prop := ∃ r, i = .mrsCnthctlEl2 r ∨ i = .msrCnthctlEl2 r

theorem accessesCnthctl_iff (i : Instr) : AccessesCnthctl i ↔ ∃ d r, i = accessorOf .cnthctlEl2 d r := by
  constructor
  · rintro ⟨r, rfl | rfl⟩
    · exact ⟨true, r, rfl⟩
    · exact ⟨false, r, rfl⟩
  · rintro ⟨d, r, rfl⟩
    cases d
    · exact ⟨r, .inr rfl⟩
    · exact ⟨r, .inl rfl⟩

theorem accessorOf_ne_sync (n : SysregName) (d : Bool) (r : RegNum) : accessorOf n d r ≠ .sync := by
  cases n <;> cases d <;> exact nofun

/-- The arm of the CNTHCTL_EL2 accessors that traps to EL2: EL1 with EL2Enabled() and NV (R182). -/
abbrev CnthctlTraps (s : State) : Prop :=
  s.ctx.el = .el1 ∧ s.ctx.el2Enabled = true ∧ nv s.cfg s.ctx = true

theorem exec_cnthctl_fault_iff {d : Bool} {r : RegNum} {s : State} {f : Fault} :
    exec (accessorOf .cnthctlEl2 d r) s = .fault f ↔
      (CnthctlUndefined s ∧ f = .undefined s.pc (endOfRun s))
        ∨ (CnthctlTraps s ∧ f = .systemAccessTrap .el2 0x18#6 (cnthctlSyndrome r d) s.pc (endOfRun s)) := by
  constructor
  · intro h
    obtain ⟨done, heq⟩ := exec_cnthctl_eq d r s
    rcases accessCnthctl_fault (heq ▸ h) with ⟨hel, hf⟩ | ⟨hel, htrap, hf⟩ | ⟨hel, htrap, hf⟩
    · exact .inl ⟨.inl hel, hf⟩
    · exact .inr ⟨⟨hel, by simpa using htrap⟩, hf⟩
    · exact .inl ⟨.inr ⟨hel, by simpa using htrap⟩, hf⟩
  · rintro (⟨h, rfl⟩ | ⟨⟨hel, hen, hnv⟩, rfl⟩)
    · exact exec_cnthctl_undefined h d r
    · exact exec_cnthctl_systemAccessTrap hel hen hnv d r

theorem exec_cntkctl_fault_iff {d : Bool} {r : RegNum} {s : State} {f : Fault} :
    exec (accessorOf .cntkctlEl1 d r) s = .fault f ↔ s.ctx.el = .el0 ∧ f = .undefined s.pc (endOfRun s) := by
  constructor
  · intro h
    obtain ⟨cell, redirected, heq⟩ := exec_cntkctl_eq d r s
    exact accessCntkctl_fault (heq ▸ h)
  · rintro ⟨hel, rfl⟩
    exact exec_accessor_undefined_of_el0 (accessorOf_ne_sync _ d r) hel

/-- The arms that read UNDEFINED, over all instructions (R181). -/
abbrev ReadsUndefined (i : Instr) (s : State) : Prop :=
  (i ≠ .sync ∧ s.ctx.el = .el0)
    ∨ (AccessesCnthctl i ∧ s.ctx.el = .el1 ∧ ¬(s.ctx.el2Enabled = true ∧ nv s.cfg s.ctx = true))

/-- The faults of an instruction are the raises of these two arms, and no others (R181, R182). -/
theorem exec_fault_iff {i : Instr} {s : State} {f : Fault} :
    exec i s = .fault f ↔
      (ReadsUndefined i s ∧ f = .undefined s.pc (endOfRun s))
        ∨ ∃ d r, i = accessorOf .cnthctlEl2 d r ∧ CnthctlTraps s
            ∧ f = .systemAccessTrap .el2 0x18#6 (cnthctlSyndrome r d) s.pc (endOfRun s) := by
  constructor
  · intro h
    obtain rfl | ⟨n, d, r, rfl⟩ := eq_sync_or_accessorOf i
    · cases h
    have hsync := accessorOf_ne_sync n d r
    cases n with
    | cnthctlEl2 =>
      rcases exec_cnthctl_fault_iff.mp h with ⟨hel | hlow, hf⟩ | ⟨htraps, hf⟩
      · exact .inl ⟨.inl ⟨hsync, hel⟩, hf⟩
      · exact .inl ⟨.inr ⟨(accessesCnthctl_iff _).mpr ⟨d, r, rfl⟩, hlow⟩, hf⟩
      · exact .inr ⟨d, r, rfl, htraps, hf⟩
    | cntkctlEl1 =>
      obtain ⟨hel, hf⟩ := exec_cntkctl_fault_iff.mp h
      exact .inl ⟨.inl ⟨hsync, hel⟩, hf⟩
  · rintro (⟨⟨hsync, hel⟩ | ⟨hacc, hlow⟩, rfl⟩ | ⟨d, r, rfl, htraps, rfl⟩)
    · exact exec_accessor_undefined_of_el0 hsync hel
    · obtain ⟨d, r, rfl⟩ := (accessesCnthctl_iff i).mp hacc
      exact exec_cnthctl_undefined (.inr hlow) d r
    · exact exec_cnthctl_fault_iff.mpr (.inr ⟨htraps, rfl⟩)

theorem exec_undefined_iff {i : Instr} {s f : State} {a : Word} :
    exec i s = .fault (.undefined a f) ↔ ReadsUndefined i s ∧ a = s.pc ∧ f = endOfRun s := by
  simp [exec_fault_iff]

theorem exec_systemAccessTrap_iff {i : Instr} {s f : State} {g : EL} {c : ExcClass} {y : Syndrome} {a : Word} :
    exec i s = .fault (.systemAccessTrap g c y a f) ↔
      ∃ d r, i = accessorOf .cnthctlEl2 d r ∧ CnthctlTraps s
        ∧ g = .el2 ∧ c = 0x18#6 ∧ y = cnthctlSyndrome r d ∧ a = s.pc ∧ f = endOfRun s := by
  simp [exec_fault_iff]

/-- Settles O18: the faults with the constructor `undefined` are those of the arms that read UNDEFINED. -/
theorem undefinedExactlyWhereSpecified : Obligations.UndefinedExactlyWhereSpecified := by
  intro i s
  refine ⟨⟨?_, fun h => ⟨_, _, exec_undefined_iff.mpr ⟨h, rfl, rfl⟩⟩⟩, fun a f h => ?_⟩
  · rintro ⟨a, f, h⟩
    exact (exec_undefined_iff.mp h).1
  · obtain ⟨-, rfl, rfl⟩ := exec_undefined_iff.mp h
    exact ⟨rfl, endOfRun_spec s⟩

/-- The syndrome of an accessor names its register, and its operand and direction name the accessor (R182). -/
theorem cnthctlSyndrome_names_accessor (d : Bool) (r : RegNum) :
    accessorOf .cnthctlEl2 d r = .mrsCnthctlEl2 (cnthctlSyndrome r d).rt ∧ (cnthctlSyndrome r d).read = true
      ∨ accessorOf .cnthctlEl2 d r = .msrCnthctlEl2 (cnthctlSyndrome r d).rt
        ∧ (cnthctlSyndrome r d).read = false := by
  cases d
  · exact .inr ⟨rfl, rfl⟩
  · exact .inl ⟨rfl, rfl⟩

/-- Settles O19: the faults with the constructor `systemAccessTrap` are those of the trapping arm. -/
theorem systemAccessTrapExactlyWhereSpecified : Obligations.SystemAccessTrapExactlyWhereSpecified := by
  intro i s
  refine ⟨⟨?_, ?_⟩, fun g c y a f h => ?_⟩
  · rintro ⟨g, c, y, a, f, h⟩
    obtain ⟨d, r, hi, htraps, -⟩ := exec_systemAccessTrap_iff.mp h
    exact ⟨(accessesCnthctl_iff i).mpr ⟨d, r, hi⟩, htraps⟩
  · rintro ⟨hacc, hel, hen, hnv⟩
    obtain ⟨d, r, rfl⟩ := (accessesCnthctl_iff i).mp hacc
    exact ⟨_, _, _, _, _, exec_cnthctl_systemAccessTrap hel hen hnv d r⟩
  · obtain ⟨d, r, rfl, -, rfl, rfl, rfl, rfl, rfl⟩ := exec_systemAccessTrap_iff.mp h
    exact ⟨rfl, rfl, rfl, endOfRun_spec s, rfl, cnthctlSyndrome_names_accessor d r⟩

/-! The state a fault carries, and the runs that begin with one. -/

theorem exec_fault_final {i : Instr} {s : State} {r : Fault} (h : exec i s = .fault r) :
    faultFinal r = endOfRun s := by
  rcases exec_fault_cases h with rfl | ⟨_, _, rfl, -⟩
  · rfl
  · rfl

/-- A step that faults carries the state after Sync in which its turn was taken (R185). -/
theorem step_fault_final {s : State} {r : Fault} (h : step s = .fault r) :
    faultFinal r = endOfRun (takeTurn s) := by
  rcases step_cases s with ⟨-, hstep⟩ | ⟨i, _, -, hstep⟩ <;> rw [hstep] at h
  · obtain ⟨_, _, -, -, hexec⟩ := peTurn_fault h
    exact exec_fault_final hexec
  · obtain ⟨_, _, -, -, rfl⟩ := environmentTurn_fault h
    rfl

/-- A run ends with its first fault (R186). -/
theorem run_succ_of_fault {s : State} {r : Fault} (h : step s = .fault r) (k : Nat) :
    Host.Core.run core (k + 1) s = .fault r := by
  have hcore : core.step s = .fault r := h
  simp only [Host.Core.run, hcore]

/-- Settles O20: `step_fault_final` names the state, and a run stops at its first step's fault. -/
theorem faultLeavesStateBefore : Obligations.FaultLeavesStateBefore := by
  intro s r h
  refine ⟨?_, run_succ_of_fault h⟩
  rw [step_fault_final h]
  exact endOfRun_spec (takeTurn s)

end Sys2Proof.Proofs.Raises

namespace Sys2Proof.Proofs.LowerLevels

open Sys2Proof.Machine Sys2Proof.Proofs.Synchronization Sys2Proof.Proofs.Accessors

/-! EL0 and EL1: of the instructions that complete, none reads or writes CNTHCTL_EL2 (R189). The same state with
another value `v` in the register is `commit v s`. -/

/-- Below EL2 and with nothing pending, the accessors of the cell complete at EL1, and SYNC has nothing to drain. -/
theorem exec_next_of_lower {i : Instr} {s t : State} (hel : s.ctx.el = .el0 ∨ s.ctx.el = .el1)
    (hH : s.pendHctl = []) (hK : s.pendKctl = []) (h : exec i s = .next t) :
    (∃ r, i = .mrsCntkctlEl1 r ∧ s.ctx.el = .el1 ∧ t = finishRead r s.cntkctl s)
      ∨ (∃ r, i = .msrCntkctlEl1 r ∧ s.ctx.el = .el1 ∧ t = advance (writeKctl (readX r s) s))
      ∨ (i = .sync ∧ t = advance s) := by
  have hne2 : s.ctx.el ≠ .el2 := by rcases hel with hel | hel <;> rw [hel] <;> decide
  have hne3 : s.ctx.el ≠ .el3 := by rcases hel with hel | hel <;> rw [hel] <;> decide
  rcases exec_next_cases h with ⟨_, -, hhigh, -⟩ | ⟨_, -, hhigh, -⟩ | ⟨_, -, hhigh, -⟩ | ⟨r, rfl, hne0, rfl⟩
    | ⟨_, -, hhigh, -⟩ | ⟨r, rfl, hne0, rfl⟩ | ⟨rfl, rfl⟩
  · exact absurd hhigh (not_or_intro hne2 hne3)
  · exact absurd hhigh (not_or_intro hne2 hne3)
  · exact absurd hhigh hne2
  · exact .inl ⟨r, rfl, hel.resolve_left hne0, rfl⟩
  · exact absurd hhigh hne2
  · exact .inr (.inl ⟨r, rfl, hel.resolve_left hne0, rfl⟩)
  · exact .inr (.inr ⟨rfl, by rw [synchronize_of_nil hH hK]⟩)

/-- A read completes in the same way over any value of the register. -/
theorem finishRead_commit (r : RegNum) (v u : Word) (s : State) :
    finishRead r u (commit v s) = commit v (finishRead r u s) := by
  unfold finishRead writeX
  split <;> rfl

/-- Settles O30: each of the three ways to complete keeps the register, and commutes with giving it another
value. -/
theorem lowerLevelsNeitherChangeNorSeeRegister : Obligations.LowerLevelsNeitherChangeNorSeeRegister := by
  intro i s t v hel hH hK h
  change SameHctl s t ∧ exec i (commit v s) = .next (commit v t)
  rcases exec_next_of_lower hel hH hK h with ⟨r, rfl, hel1, rfl⟩ | ⟨r, rfl, hel1, rfl⟩ | ⟨rfl, rfl⟩
  · refine ⟨finishRead_sameHctl r s.cntkctl s, ?_⟩
    rw [exec_mrsCntkctl_of_reachesCell (s := commit v s) (.inl hel1), commit_cntkctl, finishRead_commit]
  · exact ⟨⟨rfl, rfl, rfl, rfl⟩, exec_msrCntkctl_of_reachesCell (s := commit v s) (.inl hel1) r⟩
  · refine ⟨⟨rfl, rfl, rfl, rfl⟩, ?_⟩
    rw [exec_sync, synchronize_of_nil (s := commit v s) hH hK]
    rfl

end Sys2Proof.Proofs.LowerLevels

namespace Sys2Proof.Proofs.Resets

open Sys2Proof.Machine Sys2Proof.Proofs.DecodedStep

/-! A reset turn: what it writes, what it leaves alone, and when it is refused. -/

/-- What R210 gives a value to, in a machine with configuration `c` that the environment `e` resets. -/
abbrev HasResetValues (c : Cfg) (e : ResetEnv) (t : State) : Prop :=
  t.cnthctl = c.resetValue &&& storedMask c ∧ t.pendHctl = [] ∧ t.pendKctl = [] ∧ t.cntkctl = e.cntkctl ∧ t.x = e.x
    ∧ t.pc = e.pc ∧ t.ctx = e.ctx ∧ t.cPrev = none

theorem resetState_hasResetValues (c : Cfg) (e : ResetEnv) : HasResetValues c e (resetState c e) :=
  ⟨rfl, rfl, rfl, rfl, rfl, rfl, rfl, rfl⟩

/-- A reset during a run gives the values of a reset at its start: what it keeps of the run is none of them. -/
theorem resetInto_hasResetValues (e : ResetEnv) (s : State) : HasResetValues s.cfg e (resetInto e s) :=
  resetState_hasResetValues s.cfg e

theorem resetInto_agenda (e : ResetEnv) (s : State) : (resetInto e s).agenda = s.agenda := rfl

theorem resetTurn_of_wellFormed {e : ResetEnv} {s : State} (h : e.ctx.wellFormed s.cfg = true) :
    resetTurn e s = .next (resetInto e s) := if_pos h

theorem resetTurn_of_illFormed {e : ResetEnv} {s : State} (h : e.ctx.wellFormed s.cfg = false) :
    resetTurn e s = .refused (.illFormedContext e.ctx) := if_neg (by simp [h])

theorem step_of_reset {s : State} {e : ResetEnv} {rest : List Turn} (h : s.agenda = .env (.reset e) :: rest) :
    step s = resetTurn e { s with agenda := rest } := by
  rw [Turns.step_of_env h, takeTurn_of_cons h]
  rfl

/-- Settles O54: a reset turn is `resetInto`, which has the values of `resetState` and leaves no previous counter
value for a counter update to compare with. -/
theorem resetGivesResetValues : Obligations.ResetGivesResetValues := by
  refine ⟨resetState_hasResetValues, fun s e rest hagenda => ⟨fun hwf => ?_, fun hill => ?_⟩⟩
  · have hstep := (step_of_reset hagenda).trans (resetTurn_of_wellFormed hwf)
    obtain ⟨hval, hH, hK, hcell, hx, hpc, hctx, hprev⟩ := resetInto_hasResetValues e { s with agenda := rest }
    exact ⟨_, hstep, hval, hH, hK, hcell, hx, hpc, hctx, hprev, Parameters.resetInto_cfg e _,
      Parameters.resetInto_program e _, Parameters.resetInto_progBase e _, resetInto_agenda e _,
      Outputs.resetInto_outputs e _,
      fun q l hnext => Turns.firstCounterValueEmitsNothing _ q l ((resetInto_agenda e _).trans hnext) hprev⟩
  · exact (step_of_reset hagenda).trans (resetTurn_of_illFormed hill)

end Sys2Proof.Proofs.Resets
